-- ==== Sys2Proof/Word.lean ====
section
/-! DEFINITION. The bit-string types of the block: bytes, 16-bit fields, 32-bit words (00_scope.md section 6). -/

namespace Sys2Proof

/-- Eight bits; bit 0 is the least significant (00_scope.md section 6). -/
abbrev Byte := BitVec 8

/-- A 2-byte field: LENGTH, TYPE_WORD, TEXT_LEN, DECL_LEN, CRC, TABNO. -/
abbrev Word16 := BitVec 16

/-- A 4-byte value word W, a unit header word UH, or the data of a host register. -/
abbrev Word32 := BitVec 32

end Sys2Proof
end

