-- ==== Sys2Proof/Config.lean ====
section
/-! DEFINITION. What an implementation fixes (00_scope.md section 4, 92_eei_decisions.md) and the free values: constants
with no body, which stand for every value the spec leaves open. -/

namespace Sys2Proof

/-- Which comparison gates the result code (R118, D10). `raw` is the normative value; `masked` is the named alternative. -/
inductive RcGate where
  | raw
  | masked
deriving DecidableEq, Repr, Inhabited

/-- The parameters fixed when the block is built. DUQ_DEPTH is not among them: the model's queues are unbounded (D16).
LEN_CHECK is not either: its only value is "absent" (D21). -/
structure Params where
  /-- OFFW, the width in bits of OFF, N, SCAN_OFF, UNIT_OFF and UNIT_COUNT; at least 5 (D2). -/
  offw : Nat
  /-- RC_GATE (R118). -/
  rcGate : RcGate
deriving DecidableEq, Repr, Inhabited

/-- OFFW is at least 5 (D2) and at most 32, since the 32-bit register BUFLEN holds it (R34; DEDUCED, log 19). -/
abbrev Params.wf (p : Params) : Prop := 5 ≤ p.offw ∧ p.offw ≤ 32

/-- The parameters of the reset state: RC_GATE = RAW is normative (R118); OFFW = 32 is a DESIGN CHOICE (log 2). -/
def Params.default : Params := { offw := 32, rcGate := .raw }

/-- FREE VALUE (log 4): the `k`-th value of width `w` that the spec leaves unspecified (R25, R195, U2, U3). No body, so
nothing can be proved of the value it has. -/
opaque Config.freeBits : (w : Nat) → Nat → BitVec w

/-- FREE VALUE (log 6): what the platform's memory returns at an offset where the host placed nothing (R194, U14). -/
opaque Config.unplacedByte : Nat → Byte

end Sys2Proof
end

