-- ==== Sys2Proof/Syntax.lean ====
section
/-! DEFINITION. The named sets of the block (phases, kinds, stop causes, errors) and its eleven operations, one
constructor of `Instr` per row of opcode_table.json. -/

namespace Sys2Proof

/-- PHASE, the state of the top-level state machine (R14). -/
inductive Phase where
  | idle
  | header
  | scan
  | trailer
  | done
  | error
deriving DecidableEq, Repr, Inhabited

/-- KIND, what the type word selects (R29, R63). -/
inductive Kind where
  | dflt
  | int
  | text
  | enum
  | uint
deriving DecidableEq, Repr

/-- STOP_CAUSE, which availability check ended the scan (R33); `none` while the scan has not stopped. -/
inductive StopCause where
  | none
  | unitHeader
  | textPrefix
  | textBytes
  | fixedValue
  | resultCode
deriving DecidableEq, Repr, Inhabited

/-- ERR_CODE (R32, R167). -/
inductive ErrCode where
  | none
  | truncatedHeader
deriving DecidableEq, Repr, Inhabited

/-- The eleven operations (00_scope.md section 5, opcode_table.json). A data-unit operation carries what its 4-byte unit
header holds beside the opcode: the two DA bytes, and for the fallback the type word itself (R62). -/
inductive Instr where
  /-- HDR: read the 15-byte header (R90). -/
  | hdr
  /-- DU.INT: signed 4-byte integer, type word 1 (R105). -/
  | duInt (daH daL : Byte)
  /-- DU.TEXT: length-prefixed ASCII text, type word 2 (R106). -/
  | duText (daH daL : Byte)
  /-- DU.ENUM: signed 4-byte integer, enumerated, type word 4 (R107). -/
  | duEnum (daH daL : Byte)
  /-- DU.UINT: unsigned 4-byte integer, type word 8 (R108). -/
  | duUint (daH daL : Byte)
  /-- DU.DFLT: the fallback, any other type word (R109). -/
  | duDflt (daH daL : Byte) (typeWord : Word16)
  /-- TRL: read the optional checksum and end marker (R130). -/
  | trl
  /-- RESET: bring the block to its idle state (R150). -/
  | reset
  /-- START: begin a decode (R152). -/
  | start
  /-- DU_POP: remove the head record of the hardware queue (R155). -/
  | duPop
  /-- TX_POP: remove the head character of the hardware text queue (R156). -/
  | txPop
deriving DecidableEq, Repr

/-- A host register write on the register port: register number and 32-bit data (R34, R203). -/
structure RegWrite where
  reg : Nat
  data : Word32
deriving DecidableEq, Repr

/-- The three ways an operation is selected (R77, opcode_table.json key `selected_by`): by the phase, by the bytes of a
unit header, by the host (the reset input or a register write). -/
inductive Selector where
  | phase (p : Phase)
  | unit (bytes : List Byte)
  | resetInput
  | hostWrite (w : RegWrite)
deriving DecidableEq, Repr

end Sys2Proof
end

