-- ==== Sys2Proof/WellFormed.lean ====
section
/-! DEFINITION. Which instruction terms the encoding can produce. -/

namespace Sys2Proof

/-- The type words the map lists (R63): 1, 2, 4 and 8. -/
def listedTypeWord (t : Word16) : Bool :=
  t == 0x0001 || t == 0x0002 || t == 0x0004 || t == 0x0008

/-- A term is well formed when some encoding stands for it. The only check there is: the fallback's type word is none of
the four listed ones (R63, R109; the `except` list of its row in opcode_table.json). -/
def Instr.wellFormed : Instr → Bool
  | .hdr => true
  | .duInt _ _ => true
  | .duText _ _ => true
  | .duEnum _ _ => true
  | .duUint _ _ => true
  | .duDflt _ _ t => !listedTypeWord t
  | .trl => true
  | .reset => true
  | .start => true
  | .duPop => true
  | .txPop => true

end Sys2Proof
end

