-- ==== Sys2Proof/Decode.lean ====
section
/-! DEFINITION. Decoding: unit-header bytes, phases and host register writes to operations, total, refusing by name; then
the encoder, written from the same tables of the spec (R62, R63, R77; opcode_table.json). -/

namespace Sys2Proof

/-- Why a selector selects no operation. -/
inductive DecodeError where
  /-- Fewer than the four bytes of a unit header (R101). -/
  | shortUnitHeader
  /-- A phase that selects no operation by itself: IDLE, DONE, ERROR, or SCAN, where the unit header selects (R14). -/
  | noOperationInPhase
  /-- A host register write that is none of START, DU_POP, TX_POP (R34, R153). -/
  | noOperationInWrite
deriving DecidableEq, Repr

/-- A 2-byte big-endian number: the first byte is the more significant (R44). -/
def joinBytes (hi lo : Byte) : Word16 := hi ++ lo

/-- The more significant byte of a 2-byte number. -/
def highByte (w : Word16) : Byte := w.extractLsb' 8 8

/-- The less significant byte of a 2-byte number. -/
def lowByte (w : Word16) : Byte := w.extractLsb' 0 8

/-- The type-word map (R63, R103): equality on all sixteen bits, everything else is the fallback. -/
def kindOfType (t : Word16) : Kind :=
  if t = 0x0001 then .int
  else if t = 0x0002 then .text
  else if t = 0x0004 then .enum
  else if t = 0x0008 then .uint
  else .dflt

/-- The operation a unit header selects (R100, R103). -/
def unitInstr (daH daL : Byte) (t : Word16) : Instr :=
  match kindOfType t with
  | .int => .duInt daH daL
  | .text => .duText daH daL
  | .enum => .duEnum daH daL
  | .uint => .duUint daH daL
  | .dflt => .duDflt daH daL t

/-- Decode one unit header from the front of a byte list and return the bytes after it (R62, R101). -/
def decodeUnit : List Byte → Except DecodeError (Instr × List Byte)
  | daH :: daL :: t1 :: t0 :: rest => .ok (unitInstr daH daL (joinBytes t1 t0), rest)
  | _ => .error .shortUnitHeader

/-- The operation a phase selects without looking at a byte (R14, R77). -/
def decodePhase : Phase → Except DecodeError Instr
  | .header => .ok .hdr
  | .trailer => .ok .trl
  | .idle => .error .noOperationInPhase
  | .scan => .error .noOperationInPhase
  | .done => .error .noOperationInPhase
  | .error => .error .noOperationInPhase

/-- The operation a host register write selects: HR0, HR16 and HR18 with data bit 0 equal to 1; other data bits are
ignored (R34, R152, R155, R156). -/
def decodeWrite (w : RegWrite) : Except DecodeError Instr :=
  if w.data.getLsbD 0 = true then
    if w.reg = 0 then .ok .start
    else if w.reg = 16 then .ok .duPop
    else if w.reg = 18 then .ok .txPop
    else .error .noOperationInWrite
  else .error .noOperationInWrite

/-- The decoder over every way an operation is selected (R77). -/
def decode : Selector → Except DecodeError Instr
  | .phase p => decodePhase p
  | .unit bytes =>
    match decodeUnit bytes with
    | .ok (i, _) => .ok i
    | .error e => .error e
  | .resetInput => .ok .reset
  | .hostWrite w => decodeWrite w

/-- The four bytes of a unit header: DA_H, DA_L, then the type word, more significant byte first (R62). -/
def encodeUnit (daH daL : Byte) (t : Word16) : List Byte :=
  [daH, daL, highByte t, lowByte t]

/-- The encoder: how each operation is selected. For the three register-write operations the data word is 1. -/
def encode : Instr → Selector
  | .hdr => .phase .header
  | .duInt h l => .unit (encodeUnit h l 0x0001)
  | .duText h l => .unit (encodeUnit h l 0x0002)
  | .duEnum h l => .unit (encodeUnit h l 0x0004)
  | .duUint h l => .unit (encodeUnit h l 0x0008)
  | .duDflt h l t => .unit (encodeUnit h l t)
  | .trl => .phase .trailer
  | .reset => .resetInput
  | .start => .hostWrite { reg := 0, data := 1 }
  | .duPop => .hostWrite { reg := 16, data := 1 }
  | .txPop => .hostWrite { reg := 18, data := 1 }

/-- The bytes of a table word as the buffer holds them (log 18). Bits 31..0 are the unit header word
UH = DA_H ++ DA_L ++ TYPE_WORD (R62), stored big-endian; bits 63..32 the next four bytes (the value word W, or a text
length and two text bytes), big-endian; bits 71..64 the ninth byte, where a result code stands. -/
def tableBytes (w : Nat) : List Byte :=
  [BitVec.ofNat 8 (w / 2 ^ 24), BitVec.ofNat 8 (w / 2 ^ 16), BitVec.ofNat 8 (w / 2 ^ 8), BitVec.ofNat 8 w,
   BitVec.ofNat 8 (w / 2 ^ 56), BitVec.ofNat 8 (w / 2 ^ 48), BitVec.ofNat 8 (w / 2 ^ 40), BitVec.ofNat 8 (w / 2 ^ 32),
   BitVec.ofNat 8 (w / 2 ^ 64)]

/-- What the decoder reads from a word numbered as opcode_table.json numbers it; bits at `nbits` and above are 0. -/
def decodeTableWord (nbits w : Nat) : Option Instr :=
  match decodeUnit (tableBytes (w % 2 ^ nbits)) with
  | .ok (i, _) => some i
  | .error _ => none

end Sys2Proof
end

