-- ==== Sys2Proof/Machine/State.lean ====
section
/-! DEFINITION. The state of the block as plain data (10_state.md), the host events the step consumes, the reasons a step
can stop, and the state right after reset (R39). -/

namespace Sys2Proof.Machine

/-- The frame buffer: (offset, byte) pairs for the offsets the host has placed a byte at (R40, R49). The form is canonical
when offsets rise strictly (`Memory.wf`); an offset that is not listed has no byte of its own (log 6). -/
abbrev Memory := List Host.Cell

/-- The tagged value of a data-unit record (R27). The integer shapes carry the 32-bit word W and the tag says how to read
it (R112); the text shape carries the kept characters (R115). A fourth shape does not exist (C1). -/
inductive Value where
  | signed (w : Word32)
  | unsigned (w : Word32)
  | text (chars : List Byte)
deriving DecidableEq, Repr

/-- A data-unit record (R27). `resultCode` is the pair (RC_VALID, RESULT_CODE): `none` when RC_VALID = 0, when the
value register holds no value (R25; log 15). -/
structure Record where
  unitOff : Nat
  daH : Byte
  daL : Byte
  tabno : Word16
  typeWord : Word16
  kind : Kind
  value : Value
  declLen : Word16
  resultCode : Option Byte
deriving DecidableEq, Repr

/-- What the host does next, between two operations of the decoder (log 1). -/
inductive HostEvent where
  /-- Assert the reset input (R150, R190). -/
  | reset
  /-- Write a host register (R34). -/
  | write (w : RegWrite)
  /-- Read a host register; the data comes back in `State.hostData` (R34, log 20). -/
  | read (reg : Nat)
  /-- Place a byte in the frame buffer (R41, R191 step 3). -/
  | place (offset : Nat) (byte : Byte)
  /-- Nothing for the time of one operation: the decoder runs one operation. -/
  | wait
deriving DecidableEq, Repr

structure State where
  /-- The build parameters; the model's own field, written by no step (R4, R38; log 2). -/
  cfg : Params
  /-- BUF, the frame buffer (R40). -/
  buf : Memory
  /-- BUFLEN.N_NEXT, the length the next START latches (R34, R154). -/
  nNext : Nat
  /-- N, the latched length (R11, R154). -/
  n : Nat
  /-- OFF, the offset of the next unconsumed byte (R12). -/
  off : Nat
  /-- PHASE (R14). -/
  phase : Phase
  /-- START_FLAG (R15). -/
  startFlag : Byte
  /-- LENGTH (R16). -/
  length : Word16
  /-- START_FLAG2 (R17). -/
  startFlag2 : Byte
  /-- ADDRESS[0..7] (R18). -/
  address : Vector Byte 8
  /-- FUNCTION_CODE, all eight bits (R19); DIRECTION is its bit 7 (R20). -/
  functionCode : Byte
  /-- SEQUENCE[0..1] (R21). -/
  sequence : Vector Byte 2
  /-- HDR_VALID (R22). -/
  hdrValid : Bool
  /-- CRC (R23). -/
  crc : Word16
  /-- CRC_VALID (R23). -/
  crcValid : Bool
  /-- END_FLAG (R24). -/
  endFlag : Byte
  /-- END_VALID (R24). -/
  endValid : Bool
  /-- Every record appended since START, oldest first, popped or not: the Frame's data_units (R28, R160). -/
  units : List Record
  /-- The hardware record queue behind HR11 to HR15: what the host has not popped (R28, R34, R155). -/
  duq : List Record
  /-- TXQ, the hardware text queue: the characters the host has not popped (R30, R156). -/
  txq : List Byte
  /-- UNIT_COUNT (R28). -/
  unitCount : Nat
  /-- ERR_CODE (R32). -/
  errCode : ErrCode
  /-- STOP_CAUSE (R33). -/
  stopCause : StopCause
  /-- SCAN_OFF (R33). -/
  scanOff : Nat
  /-- The host events still to come, oldest first; the model's own field (log 1). -/
  pending : List HostEvent
  /-- The data the last register read returned; the model's own field (R203; log 20). -/
  hostData : Word32
  /-- The host has written a byte of BUF[0..N-1] in this decode (R193): its results are unspecified from then on; the
  model's own field (log 7). -/
  disturbed : Bool
  /-- The index of the next free value; the model's own field (log 4). -/
  draws : Nat
deriving DecidableEq, Repr, Inhabited

/-- Why the machine stops with a fault. The block's own error, TruncatedHeader, is none of these: it is a next state with
PHASE = ERROR (R166). -/
inductive Fault where
  /-- Raised by a host event that places a byte at an offset of 2^OFFW or more: no such offset exists (R40, U6). Safe: the
  model stops where nothing is specified (log 22). -/
  | noSuchOffset
deriving DecidableEq, Repr

/-- Why a step has no meaning. -/
inductive Refusal where
  /-- Raised by no operation: an operation the model gives no meaning would be refused by this name. Safe. -/
  | notModelled (mnemonic : String)
  /-- Raised by HDR, DU.* and TRL run outside the one phase that enables them (R14). The step never does so. Safe
  (log 9). -/
  | notEnabled
  /-- Raised by a host access to a register number above 18, which does not exist (R34, U7). Safe. -/
  | noSuchRegister
deriving DecidableEq, Repr

/-- What a step answers. -/
abbrev Result := Host.Outcome State Fault Refusal

/-- The state after RESET (R39). The fields R39 leaves unspecified hold 0, a DESIGN CHOICE (log 3): every architectural
read of one of them is guarded by its valid bit and returns a free value (log 4). No byte is placed and no host event is
pending. -/
def State.reset : State where
  cfg := Params.default
  buf := []
  nNext := 0
  n := 0
  off := 0
  phase := .idle
  startFlag := 0
  length := 0
  startFlag2 := 0
  address := #v[0, 0, 0, 0, 0, 0, 0, 0]
  functionCode := 0
  sequence := #v[0, 0]
  hdrValid := false
  crc := 0
  crcValid := false
  endFlag := 0
  endValid := false
  units := []
  duq := []
  txq := []
  unitCount := 0
  errCode := .none
  stopCause := .none
  scanOff := 0
  pending := []
  hostData := 0
  disturbed := false
  draws := 0

end Sys2Proof.Machine

/-- FREE VALUE (log 7): what stands in the result registers and queues of a decode whose buffer the host disturbed (R193,
U1), and how far the decode has come. No body, so nothing can be proved of the value it has. -/
opaque Sys2Proof.Config.freeState : Nat → Sys2Proof.Machine.State
end

