-- ==== Sys2Proof/Machine/Operands.lean ====
section
/-! DEFINITION. Operand forms: reading the frame buffer (20_memory.md), big-endian assembly, the signed reading of a
word, the ASCII filter and the table number (30_encoding.md section 4, 43_address_table_decoder.md). -/

namespace Sys2Proof.Machine

/-- Canonical form of the buffer: offsets rise strictly, so equal contents are equal lists. -/
abbrev Memory.wf (m : Memory) : Prop := m.Pairwise (fun c d => c.1 < d.1)

/-- The byte the host placed at an offset, if it placed one. -/
def Memory.lookup : Memory → Nat → Option Byte
  | [], _ => none
  | (c, b) :: m, a => if c = a then some b else Memory.lookup m a

/-- Place a byte at an offset, keeping the canonical form. -/
def Memory.place : Memory → Nat → Byte → Memory
  | [], a, b => [(a, b)]
  | (c, x) :: m, a, b =>
    if a < c then (a, b) :: (c, x) :: m
    else if a = c then (a, b) :: m
    else (c, x) :: Memory.place m a b

/-- Place consecutive bytes from an offset on. -/
def Memory.placeAll : Memory → Nat → List Byte → Memory
  | m, _, [] => m
  | m, a, b :: bs => Memory.placeAll (Memory.place m a b) (a + 1) bs

/-- `BUF[a]`: the byte placed there; a free byte where none was (R40, R194, U14; log 6). -/
def Memory.read (m : Memory) (a : Nat) : Byte :=
  match Memory.lookup m a with
  | some b => b
  | none => Config.unplacedByte a

/-- `MemRead(a, n)`: the `n` bytes from offset `a` on, in order (00_scope.md section 6, R43). -/
def Memory.readBytes (m : Memory) (a : Nat) : Nat → List Byte
  | 0 => []
  | n + 1 => Memory.read m a :: Memory.readBytes m (a + 1) n

/-- `BE(a, 2)` (R44, R68). -/
def Memory.readBE16 (m : Memory) (a : Nat) : Word16 := joinBytes (Memory.read m a) (Memory.read m (a + 1))

/-- `BE(a, 4)` (R44, R68). -/
def Memory.readBE32 (m : Memory) (a : Nat) : Word32 := Memory.readBE16 m a ++ Memory.readBE16 m (a + 2)

/-- `rem = N - OFF` for the offset `off` an operation has reached (R13, R199). -/
def remaining (s : State) (off : Nat) : Nat := s.n - off

/-- `sint32(W)`: `W` below 2^31, else `W - 2^32` (R69). -/
def sint32 (w : Word32) : Int := if w.toNat < 2 ^ 31 then (w.toNat : Int) else (w.toNat : Int) - 2 ^ 32

/-- Valid ASCII: 0x00 to 0x7F, bit 7 clear (R115; from general knowledge, log 13). -/
def isAscii (b : Byte) : Bool := !b.getLsbD 7

/-- The text of a raw byte sequence: the valid ASCII bytes, order kept, the others dropped (R115). -/
def asciiText (raw : List Byte) : List Byte := raw.filter isAscii

/-- The terms of the table-number sum for the bits `i` below the bound: `base + i` for each set bit of DA_L (R140). -/
def tabnoSum (base : Int) (daL : Byte) : Nat → Int
  | 0 => 0
  | i + 1 => tabnoSum base daL i + (if daL.getLsbD i then base + i else 0)

/-- `tabno(DA_H, DA_L)`, over the integers, so that DA_H = 0 gives a negative base (R140, R143). -/
def tabno (daH daL : Byte) : Int := tabnoSum (((daH.toNat : Int) - 1) * 8 + 1) daL 8

/-- The 16-bit two's-complement register TABNO (R27, R141). -/
def tabnoWord (daH daL : Byte) : Word16 := BitVec.ofInt 16 (tabno daH daL)

/-- What a reader inside a data-unit operation answers: the scan stops with a cause, at the offset reached (R104), or a
value was read and the offset moved past it. -/
inductive Reading (α : Type) where
  | stop (c : StopCause) (off : Nat)
  | got (a : α) (off : Nat)
deriving DecidableEq, Repr

/-- A value with its declared length. -/
structure ValueRead where
  value : Value
  declLen : Word16
deriving DecidableEq, Repr

/-- READ_FIXED: four bytes, or stop cause 4 (R111). `tag` says how the word is read (R112). -/
def readFixed (tag : Word32 → Value) (s : State) (off : Nat) : Reading ValueRead :=
  if remaining s off < 4 then .stop .fixedValue off
  else .got { value := tag (Memory.readBE32 s.buf off), declLen := 4 } (off + 4)

/-- READ_TEXT_LEN and the text: two bytes of length or stop cause 2 (R113), then that many bytes or stop cause 3 (R114),
of which the valid ASCII ones are kept (R115); the declared length is the parsed one (R116). -/
def readText (s : State) (off : Nat) : Reading ValueRead :=
  if remaining s off < 2 then .stop .textPrefix off
  else
    let len := Memory.readBE16 s.buf off
    if remaining s (off + 2) < len.toNat then .stop .textBytes (off + 2)
    else
      .got { value := .text (asciiText (Memory.readBytes s.buf (off + 2) len.toNat)), declLen := len }
        (off + 2 + len.toNat)

/-- The four bytes of the unit header at OFF, as the scanner fetches them (R101). -/
def fetchUnit (s : State) : List Byte := Memory.readBytes s.buf s.off 4

/-- The integer a value denotes (R112): `sint32(W)` or `W`; a text denotes none. -/
def Value.toInt : Value → Option Int
  | .signed w => some (sint32 w)
  | .unsigned w => some (w.toNat : Int)
  | .text _ => none

end Sys2Proof.Machine
end

