-- ==== Sys2Proof/Machine/Flags.lean ====
section
/-! DEFINITION. Flags, codes and derived predicates (10_state.md sections 2, 6, 7; 41_data_unit_scanner.md R118;
60_exceptions.md R175). -/

namespace Sys2Proof

/-- The 3-bit code of PHASE (R14, D6). -/
def Phase.code : Phase → BitVec 3
  | .idle => 0
  | .header => 1
  | .scan => 2
  | .trailer => 3
  | .done => 4
  | .error => 5

/-- The 3-bit code of KIND (R29, D17). -/
def Kind.code : Kind → BitVec 3
  | .dflt => 0
  | .int => 1
  | .text => 2
  | .enum => 3
  | .uint => 4

/-- SHAPE: 0 signed integer, 1 unsigned integer, 2 text (R29). -/
def Kind.shape : Kind → BitVec 2
  | .dflt => 0
  | .int => 0
  | .text => 2
  | .enum => 0
  | .uint => 1

/-- The 3-bit code of STOP_CAUSE (R33). -/
def StopCause.code : StopCause → BitVec 3
  | .none => 0
  | .unitHeader => 1
  | .textPrefix => 2
  | .textBytes => 3
  | .fixedValue => 4
  | .resultCode => 5

/-- The 3-bit code of ERR_CODE (R32). -/
def ErrCode.code : ErrCode → BitVec 3
  | .none => 0
  | .truncatedHeader => 1

/-- BUSY: PHASE in HEADER, SCAN, TRAILER (R14). -/
def Phase.busy : Phase → Bool
  | .idle => false
  | .header => true
  | .scan => true
  | .trailer => true
  | .done => false
  | .error => false

/-- DIRECTION of a function byte: bit 7 (R20, R70). -/
def directionOf (functionCode : Byte) : Bool := functionCode.getLsbD 7

/-- The result-code gate (R118): the raw comparison, or the named alternative that compares bits 6 to 0. -/
def resultGate (g : RcGate) (functionCode : Byte) : Bool :=
  match g with
  | .raw => directionOf functionCode && functionCode == 0x06
  | .masked => directionOf functionCode && functionCode.extractLsb' 0 7 == 0x06

namespace Machine

/-- DIRECTION, derived from FUNCTION_CODE (R20). -/
def State.direction (s : State) : Bool := directionOf s.functionCode

/-- BUSY (R14). -/
def State.busy (s : State) : Bool := s.phase.busy

/-- The level output `irq = DONE or ERR` (R175). -/
def State.irq (s : State) : Bool := s.phase == .done || s.phase == .error

/-- The gate of this decode (R118): it reads header registers and a parameter only. -/
def State.gate (s : State) : Bool := resultGate s.cfg.rcGate s.functionCode

/-- RESULT_CODE_STEP (R119): under the gate one byte or stop cause 5; otherwise nothing is read and nothing is tested. -/
def readResultCode (s : State) (off : Nat) : Reading (Option Byte) :=
  if s.gate = true then
    if remaining s off < 1 then .stop .resultCode off
    else .got (some (Memory.read s.buf off)) (off + 1)
  else .got none off

/-- TEXT_KEPT: the number of characters a text record kept (R30). -/
def Record.textKept (r : Record) : Nat :=
  match r.value with
  | .text chars => chars.length
  | .signed _ => 0
  | .unsigned _ => 0

/-- The characters a record contributes to TXQ (R30). -/
def Record.chars (r : Record) : List Byte :=
  match r.value with
  | .text chars => chars
  | .signed _ => []
  | .unsigned _ => []

/-- The length in bytes of the unit a record was decoded from: 8 for a fixed kind, 6 + TEXT_LEN for a text, and one more
for a result code (R74). -/
def Record.span (r : Record) : Nat :=
  (match r.value with
   | .text _ => 6 + r.declLen.toNat
   | .signed _ => 8
   | .unsigned _ => 8)
  + (match r.resultCode with
     | some _ => 1
     | none => 0)

end Machine

end Sys2Proof
end

