-- ==== Sys2Proof/Machine/Ops.lean ====
section
/-! DEFINITION. The named updates of the state that the operations share: raising the one error (R166), stopping the scan
(R104), appending a record (R120), reading header and trailer, clearing for a decode (R152) and for reset (R150), the two
pops (R155, R156), the host's buffer write (R191) and what it does to a decode it disturbs (R193), and the enabling of a
decoder operation by its phase (R14). -/

namespace Sys2Proof.Machine

/-- `raise TruncatedHeader`, the whole effect of taking the one exception (R166): ERR_CODE and PHASE, nothing else. -/
def raiseTruncatedHeader (s : State) : State :=
  { s with errCode := .truncatedHeader, phase := .error }

/-- `stop(c)` at the offset reached, which is not rewound (R104). -/
def stopScan (c : StopCause) (off : Nat) (s : State) : State :=
  { s with off := off, stopCause := c, scanOff := off, phase := .trailer }

/-- `append(record)`: the record to the tail of DUQ, its characters to the tail of TXQ, UNIT_COUNT up by one, all in one
step; OFF stands past the unit (R120, R30, R200). -/
def appendRecord (r : Record) (off : Nat) (s : State) : State :=
  { s with
    off := off
    units := s.units ++ [r]
    duq := s.duq ++ [r]
    txq := s.txq ++ r.chars
    unitCount := s.unitCount + 1 }

/-- The header fields from BUF[0..14], HDR_VALID, and on to the scan (R90, R61). -/
def loadHeader (s : State) : State :=
  { s with
    startFlag := Memory.read s.buf 0
    length := Memory.readBE16 s.buf 1
    startFlag2 := Memory.read s.buf 3
    address := #v[Memory.read s.buf 4, Memory.read s.buf 5, Memory.read s.buf 6, Memory.read s.buf 7,
      Memory.read s.buf 8, Memory.read s.buf 9, Memory.read s.buf 10, Memory.read s.buf 11]
    functionCode := Memory.read s.buf 12
    sequence := #v[Memory.read s.buf 13, Memory.read s.buf 14]
    hdrValid := true
    off := 15
    phase := .scan }

/-- The checksum half of TRL (R130, R131). That CRC keeps its old bits when it is absent, and so holds no value, is a DESIGN
CHOICE: R25 and U3 leave them open (log 29). -/
def loadCrc (s : State) : State :=
  if 2 ≤ remaining s s.off then
    { s with crc := Memory.readBE16 s.buf s.off, crcValid := true, off := s.off + 2 }
  else { s with crcValid := false }

/-- The end-marker half of TRL, on the offset the checksum half left (R130, R132). That END_FLAG keeps its old bits when it is
absent is a DESIGN CHOICE, as for CRC (log 29). -/
def loadEndFlag (s : State) : State :=
  if 1 ≤ remaining s s.off then
    { s with endFlag := Memory.read s.buf s.off, endValid := true, off := s.off + 1 }
  else { s with endValid := false }

/-- Clear every result of the previous decode: what START and RESET have in common (R150, R152). -/
def clearResults (s : State) : State :=
  { s with
    off := 0
    hdrValid := false
    crcValid := false
    endValid := false
    errCode := .none
    stopCause := .none
    unitCount := 0
    units := []
    duq := []
    txq := []
    disturbed := false }

/-- START (R152): latch N, clear, go to HEADER. It is also the return from the error (R172): ERR_CODE is cleared and
nothing of the failed decode is resumed. The header fields, CRC, END_FLAG and SCAN_OFF keep no meaning (R152); that their
old bits stay is a DESIGN CHOICE, R25 leaves old bits or zeros open (log 28). -/
def startDecode (s : State) : State :=
  { clearResults s with n := s.nNext, phase := .header }

/-- The registers R39 leaves unspecified after RESET take free values (log 5): each a value of which nothing is known. -/
def forgetRegisters (s : State) : State :=
  { s with
    startFlag := Config.freeBits 8 s.draws
    length := Config.freeBits 16 (s.draws + 1)
    startFlag2 := Config.freeBits 8 (s.draws + 2)
    address := #v[Config.freeBits 8 (s.draws + 3), Config.freeBits 8 (s.draws + 4), Config.freeBits 8 (s.draws + 5),
      Config.freeBits 8 (s.draws + 6), Config.freeBits 8 (s.draws + 7), Config.freeBits 8 (s.draws + 8),
      Config.freeBits 8 (s.draws + 9), Config.freeBits 8 (s.draws + 10)]
    functionCode := Config.freeBits 8 (s.draws + 11)
    sequence := #v[Config.freeBits 8 (s.draws + 12), Config.freeBits 8 (s.draws + 13)]
    crc := Config.freeBits 16 (s.draws + 14)
    endFlag := Config.freeBits 8 (s.draws + 15)
    scanOff := (Config.freeBits s.cfg.offw (s.draws + 16)).toNat
    draws := s.draws + 17 }

/-- RESET (R150): IDLE, every counter, valid bit, code and queue cleared, the other registers unspecified. The buffer, the
build parameters and the host's own pending events are not part of what RESET writes. -/
def resetBlock (s : State) : State :=
  { clearResults (forgetRegisters s) with n := 0, nNext := 0, phase := .idle }

/-- Remove the head record of the hardware queue; nothing when DU_AVAIL = 0 (R155). -/
def popRecord (s : State) : State := { s with duq := s.duq.tail }

/-- Remove the head character of the hardware text queue; nothing when TX_AVAIL = 0 (R156). -/
def popChar (s : State) : State := { s with txq := s.txq.tail }

/-- A host write to BUFLEN changes N_NEXT only; bits at OFFW and above are ignored (R154, R34). -/
def setBufLen (v : Word32) (s : State) : State := { s with nNext := v.toNat % 2 ^ s.cfg.offw }

/-- A record in the widths of the block: UNIT_OFF has OFFW bits (R31). -/
def fitRecord (s : State) (r : Record) : Record := { r with unitOff := r.unitOff % 2 ^ s.cfg.offw }

/-- The stop cause of a disturbed decode in phase `p`: any cause once the scan has stopped, none before (R33). -/
def causeIn (p : Phase) (c : StopCause) : StopCause :=
  if p = .trailer ∨ p = .done then (if c = .none then .unitHeader else c) else .none

/-- Every result of a disturbed decode takes the value it has in `f`, which is free (R193, U1; log 7), and the decode goes on
in phase `p` at `off`. What the phase alone decides stays consistent with it: HDR_VALID, ERR_CODE, whether there is a stop
cause, no trailer field before DONE. The parameters, the buffer, N, N_NEXT and the host's side are as before. -/
def loseResults (f : State) (p : Phase) (off : Nat) (s : State) : State :=
  { f with
    cfg := s.cfg
    buf := s.buf
    nNext := s.nNext
    n := s.n
    off := off
    phase := p
    hdrValid := p == .scan || p == .trailer || p == .done
    crcValid := p == .done && f.crcValid
    endValid := p == .done && f.endValid
    units := f.units.map (fitRecord s)
    duq := f.duq.map (fitRecord s)
    unitCount := f.unitCount % 2 ^ s.cfg.offw
    errCode := if p = .error then .truncatedHeader else .none
    stopCause := causeIn p f.stopCause
    scanOff := f.scanOff % 2 ^ s.cfg.offw
    pending := s.pending
    hostData := s.hostData
    disturbed := true
    draws := s.draws + 1 }

/-- One decoder operation of a disturbed decode (R193; log 7): how far OFF grows towards N, which phase comes next and which
stop or error ends it are free; the scan only goes on while OFF grows, so the decode ends. -/
def disturbedOp (s : State) : State :=
  let f := Config.freeState s.draws
  let on := s.off + f.off % (s.n - s.off + 1)
  match s.phase with
  | .header => loseResults f (if f.phase = .error then .error else .scan) on s
  | .scan =>
    if f.phase = .error then loseResults f .error on s
    else if f.phase = .scan ∧ s.off < s.n then loseResults f .scan (s.off + 1 + f.off % (s.n - s.off)) s
    else loseResults f .trailer on s
  | .trailer => loseResults f (if f.phase = .error then .error else .done) on s
  | .idle => s
  | .done => s
  | .error => s

/-- Run a decoder operation only in the phase that enables it (R14): to `t`, unless the host has disturbed this decode
(R193). -/
def inPhase (p : Phase) (s t : State) : Result :=
  if s.phase = p then .next (if s.disturbed = true then disturbedOp s else t) else .refused .notEnabled

/-- The host places a byte in the buffer (R191). An offset of 2^OFFW or more does not exist (R40). A byte of BUF[0..N-1]
written while BUSY = 1 disturbs the decode: its results are unspecified from then on, and it goes on from where it stands
(R193, U1; log 7). A byte beyond N disturbs nothing (R193). -/
def placeByte (a : Nat) (b : Byte) (s : State) : Result :=
  if 2 ^ s.cfg.offw ≤ a then .fault .noSuchOffset
  else
    let s' : State := { s with buf := Memory.place s.buf a b }
    .next (if s.busy = true ∧ a < s.n then loseResults (Config.freeState s.draws) s.phase s.off s' else s')

end Sys2Proof.Machine
end

