-- ==== Sys2Proof/Machine/Header.lean ====
section
/-! DEFINITION. The header reader: operation HDR (40_header_reader.md). -/

namespace Sys2Proof.Machine

/-- HDR (R90): the one test is on the buffer length, before any byte is read; it fails with TruncatedHeader (R166) or the
fifteen bytes are delivered at once (R91). Nothing is validated (R92). -/
def execHdr (s : State) : Result :=
  inPhase .header s (if s.n < 15 then raiseTruncatedHeader s else loadHeader s)

end Sys2Proof.Machine
end

