-- ==== Sys2Proof/Machine/HostOps.lean ====
section
/-! DEFINITION. The four host operations (44_host_operations.md). -/

namespace Sys2Proof.Machine

/-- RESET (R150): enabled in every phase; a decode in progress is abandoned. -/
def execReset (s : State) : Result := .next (resetBlock s)

/-- START (R152), enabled in IDLE, DONE and ERROR (R151); while BUSY it is ignored and not remembered (R153). -/
def execStart (s : State) : Result := .next (if s.busy = true then s else startDecode s)

/-- DU_POP (R155): allowed in every phase; ignored when the queue is empty. -/
def execDuPop (s : State) : Result := .next (popRecord s)

/-- TX_POP (R156): allowed in every phase; ignored when the queue is empty. -/
def execTxPop (s : State) : Result := .next (popChar s)

end Sys2Proof.Machine
end

