-- ==== Sys2Proof/Machine/Scanner.lean ====
section
/-! DEFINITION. The data-unit scanner: the five data-unit operations over one shared outline (41_data_unit_scanner.md). -/

namespace Sys2Proof.Machine

/-- The effect of one data-unit operation (R100): the unit header (R101), the kind's value reader on the offset past it,
the result code (R119), the append (R120). The first availability check that fails stops the scan where the offset stands
(R104, R110). `daH`, `daL` and `typeWord` are the unit header's fields, `kind` what the type word selects. -/
def scanUnit (kind : Kind) (daH daL : Byte) (typeWord : Word16) (readValue : State → Nat → Reading ValueRead)
    (s : State) : State :=
  if remaining s s.off < 4 then stopScan .unitHeader s.off s
  else
    match readValue s (s.off + 4) with
    | .stop c off => stopScan c off s
    | .got v off =>
      match readResultCode s off with
      | .stop c off => stopScan c off s
      | .got rc off =>
        appendRecord
          { unitOff := s.off, daH := daH, daL := daL, tabno := tabnoWord daH daL, typeWord := typeWord, kind := kind,
            value := v.value, declLen := v.declLen, resultCode := rc } off s

/-- DU.INT (R105). -/
def execDuInt (daH daL : Byte) (s : State) : Result :=
  inPhase .scan s (scanUnit .int daH daL 0x0001 (readFixed .signed) s)

/-- DU.TEXT (R106). -/
def execDuText (daH daL : Byte) (s : State) : Result :=
  inPhase .scan s (scanUnit .text daH daL 0x0002 readText s)

/-- DU.ENUM (R107): as DU.INT but for KIND and the type word. -/
def execDuEnum (daH daL : Byte) (s : State) : Result :=
  inPhase .scan s (scanUnit .enum daH daL 0x0004 (readFixed .signed) s)

/-- DU.UINT (R108). -/
def execDuUint (daH daL : Byte) (s : State) : Result :=
  inPhase .scan s (scanUnit .uint daH daL 0x0008 (readFixed .unsigned) s)

/-- DU.DFLT (R109): the record keeps the type word it read. -/
def execDuDflt (daH daL : Byte) (typeWord : Word16) (s : State) : Result :=
  inPhase .scan s (scanUnit .dflt daH daL typeWord (readFixed .signed) s)

/-- The turn of the scan loop that finds fewer than four bytes: there is no unit header and so no kind, and the scan stops
with cause 1 (R101, R104; log 21). -/
def scanEnd (s : State) : Result :=
  inPhase .scan s (stopScan .unitHeader s.off s)

end Sys2Proof.Machine
end

