-- ==== Sys2Proof/Machine/Trailer.lean ====
section
/-! DEFINITION. The trailer reader: operation TRL (42_trailer_reader.md). -/

namespace Sys2Proof.Machine

/-- TRL (R130): the checksum if two bytes remain, then the end marker if one byte remains, then DONE. It cannot fail. -/
def execTrl (s : State) : Result :=
  inPhase .trailer s { loadEndFlag (loadCrc s) with phase := .done }

end Sys2Proof.Machine
end

