-- ==== Sys2Proof/Machine/Dispatch.lean ====
section
/-! DEFINITION. One arm per operation of opcode_table.json. -/

namespace Sys2Proof.Machine

def exec (i : Instr) (s : State) : Host.Outcome State Fault Refusal :=
  match i with
  | .hdr => Sys2Proof.Machine.execHdr s
  | .duInt daH daL => Sys2Proof.Machine.execDuInt daH daL s
  | .duText daH daL => Sys2Proof.Machine.execDuText daH daL s
  | .duEnum daH daL => Sys2Proof.Machine.execDuEnum daH daL s
  | .duUint daH daL => Sys2Proof.Machine.execDuUint daH daL s
  | .duDflt daH daL typeWord => Sys2Proof.Machine.execDuDflt daH daL typeWord s
  | .trl => Sys2Proof.Machine.execTrl s
  | .reset => Sys2Proof.Machine.execReset s
  | .start => Sys2Proof.Machine.execStart s
  | .duPop => Sys2Proof.Machine.execDuPop s
  | .txPop => Sys2Proof.Machine.execTxPop s

end Sys2Proof.Machine
end

