-- ==== Sys2Proof/Machine/Registers.lean ====
section
/-! DEFINITION. The host register file HR0 to HR18: what a read returns and what a write that selects no operation does
(10_state.md R34 to R36). -/

namespace Sys2Proof.Machine

/-- What a host register shows: its 32 bits, and which of them the spec leaves unspecified at this moment (R25, R34 "u",
R36). -/
structure RegView where
  value : Word32
  unspecified : Word32
deriving DecidableEq, Repr

/-- A field whose least significant bit stands at `pos`. -/
def placeField {w : Nat} (pos : Nat) (v : BitVec w) : Word32 := v.setWidth 32 <<< pos

/-- A one-bit field at `pos`. -/
def placeFlag (pos : Nat) (b : Bool) : Word32 := placeField pos (BitVec.ofBool b)

/-- The mask of a field of `w` bits at `pos`, when the field is unspecified; no bit of it when it is meaningful. -/
def unlessValid (valid : Bool) (w pos : Nat) : Word32 :=
  if valid = true then 0 else placeField pos (BitVec.allOnes w)

/-- An OFFW-bit quantity in a 32-bit register; the bits at OFFW and above read 0 (R34, R35; log 19). -/
def offsetField (s : State) (x : Nat) : Word32 := BitVec.ofNat 32 (x % 2 ^ s.cfg.offw)

/-- The mask of an OFFW-bit field, when it is unspecified. -/
def unlessValidOffset (valid : Bool) (s : State) : Word32 := unlessValid valid s.cfg.offw 0

/-- A register every bit of which is specified. -/
def plain (v : Word32) : RegView := { value := v, unspecified := 0 }

/-- HR2 STATUS. DIRECTION is meaningful only when HDR_VALID = 1. -/
def viewStatus (s : State) : RegView where
  value :=
    placeField 0 s.phase.code ||| placeFlag 3 s.busy ||| placeFlag 4 (s.phase == .done) |||
      placeFlag 5 (s.phase == .error) ||| placeFlag 6 s.hdrValid ||| placeFlag 7 s.direction |||
      placeFlag 8 s.crcValid ||| placeFlag 9 s.endValid ||| placeField 10 s.stopCause.code |||
      placeField 13 s.errCode.code
  unspecified := unlessValid s.hdrValid 1 7

/-- HR4 SCANOFF, meaningful only when STOP_CAUSE is not 0. -/
def viewScanOff (s : State) : RegView where
  value := offsetField s s.scanOff
  unspecified := unlessValidOffset (s.stopCause != .none) s

/-- HR6 HDR_A: START_FLAG, LENGTH, START_FLAG2. -/
def viewHdrA (s : State) : RegView where
  value := placeField 24 s.startFlag ||| placeField 8 s.length ||| placeField 0 s.startFlag2
  unspecified := unlessValid s.hdrValid 32 0

/-- HR7 ADDR_HI: ADDRESS[0] in the most significant byte (R18, D11). -/
def viewAddrHi (s : State) : RegView where
  value :=
    placeField 24 s.address[0] ||| placeField 16 s.address[1] ||| placeField 8 s.address[2] ||| placeField 0 s.address[3]
  unspecified := unlessValid s.hdrValid 32 0

/-- HR8 ADDR_LO. -/
def viewAddrLo (s : State) : RegView where
  value :=
    placeField 24 s.address[4] ||| placeField 16 s.address[5] ||| placeField 8 s.address[6] ||| placeField 0 s.address[7]
  unspecified := unlessValid s.hdrValid 32 0

/-- HR9 HDR_B: FUNCTION_CODE and SEQUENCE; bits 31 to 24 are reserved. -/
def viewHdrB (s : State) : RegView where
  value := placeField 16 s.functionCode ||| placeField 8 s.sequence[0] ||| placeField 0 s.sequence[1]
  unspecified := unlessValid s.hdrValid 24 0

/-- HR10 TRAILER, meaningful when DONE = 1, field by field under its valid bit (R36; log 23). -/
def viewTrailer (s : State) : RegView where
  value := placeField 8 s.crc ||| placeField 0 s.endFlag
  unspecified :=
    unlessValid (s.phase == .done && s.crcValid) 16 8 ||| unlessValid (s.phase == .done && s.endValid) 8 0

/-- HR13's 32 bits for a record: W of a fixed kind, TEXT_KEPT of a text (R27, R30). -/
def Record.valueWord (r : Record) : Word32 :=
  match r.value with
  | .signed w => w
  | .unsigned w => w
  | .text chars => BitVec.ofNat 32 chars.length

/-- HR11 DU_DADT, of the head record. -/
def viewDuDadt (s : State) : RegView :=
  match s.duq with
  | [] => { value := 0, unspecified := unlessValid false 32 0 }
  | r :: _ => plain (placeField 24 r.daH ||| placeField 16 r.daL ||| placeField 0 r.typeWord)

/-- HR12 DU_INFO, of the head record. -/
def viewDuInfo (s : State) : RegView :=
  match s.duq with
  | [] => { value := 0, unspecified := unlessValid false 32 0 }
  | r :: _ => plain (placeField 16 r.tabno ||| placeField 0 r.declLen)

/-- HR13 DU_VALUE, of the head record. -/
def viewDuValue (s : State) : RegView :=
  match s.duq with
  | [] => { value := 0, unspecified := unlessValid false 32 0 }
  | r :: _ => plain r.valueWord

/-- HR14 DU_FLAGS: DU_AVAIL always; the head record's fields while it is 1; RESULT_CODE while RC_VALID = 1. Bit 7, which the
table gives no field, then reads 0 (DEDUCED from 95_test_vectors.md P1 and P2; log 27). -/
def viewDuFlags (s : State) : RegView :=
  match s.duq with
  | [] => { value := 0, unspecified := unlessValid false 15 1 }
  | r :: _ =>
    { value :=
        placeFlag 0 true ||| placeField 1 r.kind.code ||| placeField 4 r.kind.shape |||
          placeFlag 6 r.resultCode.isSome ||| placeField 8 (r.resultCode.getD 0)
      unspecified := unlessValid r.resultCode.isSome 8 8 }

/-- HR15 DU_OFF, of the head record. -/
def viewDuOff (s : State) : RegView :=
  match s.duq with
  | [] => { value := 0, unspecified := unlessValidOffset false s }
  | r :: _ => plain (offsetField s r.unitOff)

/-- HR17 TX_CHAR: the head character and TX_AVAIL. -/
def viewTxChar (s : State) : RegView :=
  match s.txq with
  | [] => { value := 0, unspecified := unlessValid false 8 0 }
  | c :: _ => plain (placeFlag 8 true ||| placeField 0 c)

/-- The host register file (R34). Write-only registers read 0. A number above 18 names no register (U7). -/
def viewReg (reg : Nat) (s : State) : Option RegView :=
  match reg with
  | 0 => some (plain 0)
  | 1 => some (plain (offsetField s s.nNext))
  | 2 => some (viewStatus s)
  | 3 => some (plain (offsetField s s.off))
  | 4 => some (viewScanOff s)
  | 5 => some (plain (offsetField s s.unitCount))
  | 6 => some (viewHdrA s)
  | 7 => some (viewAddrHi s)
  | 8 => some (viewAddrLo s)
  | 9 => some (viewHdrB s)
  | 10 => some (viewTrailer s)
  | 11 => some (viewDuDadt s)
  | 12 => some (viewDuInfo s)
  | 13 => some (viewDuValue s)
  | 14 => some (viewDuFlags s)
  | 15 => some (viewDuOff s)
  | 16 => some (plain 0)
  | 17 => some (viewTxChar s)
  | 18 => some (plain 0)
  | _ => none

/-- The data a read returns: specified bits as they are, each unspecified bit from a free value (R195, U2). -/
def RegView.data (v : RegView) (free : Word32) : Word32 :=
  (v.value &&& ~~~v.unspecified) ||| (free &&& v.unspecified)

/-- A host register read. It disturbs nothing of the block (R195); the data goes to the register port (log 20). -/
def readReg (reg : Nat) (s : State) : Result :=
  match viewReg reg s with
  | none => .refused .noSuchRegister
  | some v => .next { s with hostData := v.data (Config.freeBits 32 s.draws), draws := s.draws + 1 }

/-- A host register write that selects no operation: BUFLEN takes the length (R154); every other register ignores it, a
read-only one (R34), a write-only one written with bit 0 clear (R153, R155, R156). A number above 18 names no register. -/
def writeReg (w : RegWrite) (s : State) : Result :=
  if 18 < w.reg then .refused .noSuchRegister
  else if w.reg = 1 then .next (setBufLen w.data s)
  else .next s

end Sys2Proof.Machine
end

