-- ==== Sys2Proof/Machine/Run.lean ====
section
/-! DEFINITION. One operation of the decoder (R157) and one event of the host (44_host_operations.md), each selecting an
operation through the decoder of Decode.lean and running it through exec. -/

namespace Sys2Proof.Machine

/-- The scanner's turn (R100): with fewer than four bytes left there is no unit header and the scan ends; otherwise the
four bytes at OFF select the operation. -/
def scannerStep (s : State) : Result :=
  if remaining s s.off < 4 then scanEnd s
  else
    match decode (.unit (fetchUnit s)) with
    | .ok i => exec i s
    | .error _ => scanEnd s

/-- What the decoder does next (R14, R157): the operation its phase enables; in IDLE, DONE and ERROR, nothing. -/
def decoderStep (s : State) : Result :=
  match s.phase with
  | .scan => scannerStep s
  | p =>
    match decode (.phase p) with
    | .ok i => exec i s
    | .error _ => .next s

/-- A host register write (R34): one that selects START, DU_POP or TX_POP runs it; any other only writes the register. -/
def writeStep (w : RegWrite) (s : State) : Result :=
  match decode (.hostWrite w) with
  | .ok i => exec i s
  | .error _ => writeReg w s

/-- The reset input (R150, R190). -/
def resetStep (s : State) : Result :=
  match decode .resetInput with
  | .ok i => exec i s
  | .error _ => .next s

/-- One host event (log 1). -/
def hostStep (e : HostEvent) (s : State) : Result :=
  match e with
  | .reset => resetStep s
  | .write w => writeStep w s
  | .read reg => readReg reg s
  | .place a b => placeByte a b s
  | .wait => decoderStep s

/-- One step of block and host together: the oldest pending host event, or, with none pending, the decoder. -/
def stepBlock (s : State) : Result :=
  match s.pending with
  | [] => decoderStep s
  | e :: rest => hostStep e { s with pending := rest }

/-- The state in which the very next step fetches and runs the unit whose bytes are given: the scan phase, no host event
pending, the bytes placed at OFF, and N large enough to hold them (log 17). -/
def placeUnit (s : State) (bytes : List Byte) : State :=
  { s with
    pending := []
    phase := .scan
    n := max s.n (s.off + bytes.length)
    buf := Memory.placeAll s.buf s.off bytes }

end Sys2Proof.Machine
end

