-- ==== Sys2Proof/Machine/Step.lean ====
section
/-! DEFINITION. The step of the machine, and the state in which it fetches a given table word next. -/

namespace Sys2Proof.Machine

/-- One step: the oldest pending host event, or one operation of the decoder (R157; log 1). -/
def step (s : State) : Host.Outcome State Fault Refusal := stepBlock s

/-- `s` with the data unit of a table word stored where the scanner fetches next (log 17, log 18). -/
def State.withFetchWord (s : State) (nbits w : Nat) : State := placeUnit s (tableBytes (w % 2 ^ nbits))

end Sys2Proof.Machine
end

