-- ==== Sys2Proof/Machine/Frame.lean ====
section
/-! DEFINITION. The observation a claim about the block is stated over: the Frame of a finished decode, or the error
(44_host_operations.md R160). Diagnostics are outside it. -/

namespace Sys2Proof.Machine

/-- The value of a DataUnit as the document has it: an integer or a text (R27, R112). -/
inductive UnitValue where
  | signedInt (i : Int)
  | unsignedInt (n : Nat)
  | text (chars : List Byte)
deriving DecidableEq, Repr

/-- A DataUnit of the Frame: the record less its diagnostic UNIT_OFF, numbers as numbers (R27, R160). -/
structure DataUnit where
  addressCode : Byte × Byte
  tableNumber : Int
  typeCode : Nat
  kind : Kind
  value : UnitValue
  resultCode : Option Byte
  declaredLength : Nat
deriving DecidableEq, Repr

/-- The Frame (R160). `none` is the document's null. -/
structure Frame where
  startFlag : Byte
  length : Nat
  startFlag2 : Byte
  address : Vector Byte 8
  functionCode : Byte
  direction : Bool
  sequence : Vector Byte 2
  dataUnits : List DataUnit
  crc : Option Nat
  endFlag : Option Byte
deriving DecidableEq, Repr

/-- The outcome of a decode (R1, R160). -/
inductive Observation where
  | frame (f : Frame)
  | truncatedHeader
deriving DecidableEq, Repr

/-- The value a record's VALUE denotes (R112). -/
def Value.denote : Value → UnitValue
  | .signed w => .signedInt (sint32 w)
  | .unsigned w => .unsignedInt w.toNat
  | .text chars => .text chars

/-- The DataUnit of a record. -/
def Record.dataUnit (r : Record) : DataUnit where
  addressCode := (r.daH, r.daL)
  tableNumber := r.tabno.toInt
  typeCode := r.typeWord.toNat
  kind := r.kind
  value := r.value.denote
  resultCode := r.resultCode
  declaredLength := r.declLen.toNat

/-- The Frame in terms of state (R160). -/
def State.frame (s : State) : Frame where
  startFlag := s.startFlag
  length := s.length.toNat
  startFlag2 := s.startFlag2
  address := s.address
  functionCode := s.functionCode
  direction := s.direction
  sequence := s.sequence
  dataUnits := s.units.map Record.dataUnit
  crc := if s.crcValid = true then some s.crc.toNat else none
  endFlag := if s.endValid = true then some s.endFlag else none

/-- What a state lets the host observe: the Frame in DONE, the error in ERROR, nothing before (R160, R36). -/
def State.observe (s : State) : Option Observation :=
  match s.phase with
  | .done => some (.frame s.frame)
  | .error => some .truncatedHeader
  | .idle => none
  | .header => none
  | .scan => none
  | .trailer => none

end Sys2Proof.Machine
end

