-- ==== Sys2Proof/Machine/Schedule.lean ====
section
/-! DEFINITION. The byte schedules (R91, R124, R135): the same operations one byte at a time, as a machine of micro-states
with the working registers of R26. It is a refinement beside the machine of whole operations; step does not use it. -/

namespace Sys2Proof.Machine

/-- The micro-states of the three schedules. `hAd i` is H_AD0 to H_AD7, `uTxt left` is U_TXT with the text bytes still to
read. `parked` is the decoder at rest in IDLE, DONE or ERROR. -/
inductive MicroState where
  | hChk
  | hSf
  | hLen1
  | hLen0
  | hSf2
  | hAd (i : Fin 8)
  | hAfn
  | hSq0
  | hSq1
  | uChk
  | uDah
  | uDal
  | uDt1
  | uDt0
  | uTl1
  | uTl0
  | uTxt (left : Nat)
  | uV3
  | uV2
  | uV1
  | uV0
  | uRc
  | uApp
  | tChk
  | tCrc1
  | tCrc0
  | tChk2
  | tEnd
  | parked
deriving DecidableEq, Repr

/-- The working registers of a data-unit operation (R26). -/
structure Working where
  unitOff : Nat
  daH : Byte
  daL : Byte
  typeWord : Word16
  tabno : Word16
  kind : Kind
  textLen : Word16
  text : List Byte
  w : Word32
  declLen : Word16
  resultCode : Byte
  rcValid : Bool
deriving DecidableEq, Repr

/-- The byte-serial decoder: the state of the block, the micro-state, the working registers. -/
structure Micro where
  st : State
  at_ : MicroState
  work : Working
deriving DecidableEq, Repr

/-- The micro-state in which a phase begins its operation. -/
def microEntry : Phase → MicroState
  | .header => .hChk
  | .scan => .uChk
  | .trailer => .tChk
  | .idle => .parked
  | .done => .parked
  | .error => .parked

/-- Replace the more significant byte of a 16-bit register. -/
def setHigh (b : Byte) (w : Word16) : Word16 := joinBytes b (lowByte w)

/-- Replace the less significant byte of a 16-bit register. -/
def setLow (b : Byte) (w : Word16) : Word16 := joinBytes (highByte w) b

/-- Shift the next, less significant byte of the value word in (rows U_V3 to U_V0 of R124). -/
def shiftIn (w : Word32) (b : Byte) : Word32 := (w <<< 8) ||| b.setWidth 32

/-- Stop the scan where OFF stands (R104). -/
def microStop (c : StopCause) (m : Micro) : Micro :=
  { m with st := stopScan c m.st.off m.st, at_ := .tChk }

/-- Consume the byte at OFF: the state with OFF one further. -/
def advance (s : State) : State := { s with off := s.off + 1 }

/-- The value the working registers hold, tagged by KIND (R112). -/
def workValue (w : Working) : Value :=
  match w.kind with
  | .text => .text w.text
  | .uint => .unsigned w.w
  | .int => .signed w.w
  | .enum => .signed w.w
  | .dflt => .signed w.w

/-- The record the working registers hold (R120). -/
def workRecord (w : Working) : Record where
  unitOff := w.unitOff
  daH := w.daH
  daL := w.daL
  tabno := w.tabno
  typeWord := w.typeWord
  kind := w.kind
  value := workValue w
  declLen := w.declLen
  resultCode := if w.rcValid = true then some w.resultCode else none

/-- Where a unit goes once its value is read: U_RC under the gate, else U_APP with RC_VALID = 0 (R119, R124). -/
def afterValue (s : State) (w : Working) : Micro :=
  if s.gate = true then { st := s, at_ := .uRc, work := w }
  else { st := s, at_ := .uApp, work := { w with rcValid := false } }

/-- U_TXT while bytes are left, else on to the result code (R124). -/
def textOrOn (left : Nat) (s : State) (w : Working) : Micro :=
  match left with
  | 0 => afterValue s w
  | k + 1 => { st := s, at_ := .uTxt (k + 1), work := w }

/-- The header's schedule (R91). -/
def microHeader (m : Micro) : Micro :=
  let s := m.st
  match m.at_ with
  | .hChk => if s.n < 15 then { m with st := raiseTruncatedHeader s, at_ := .parked } else { m with at_ := .hSf }
  | .hSf => { m with st := { s with startFlag := Memory.read s.buf 0 }, at_ := .hLen1 }
  | .hLen1 => { m with st := { s with length := setHigh (Memory.read s.buf 1) s.length }, at_ := .hLen0 }
  | .hLen0 => { m with st := { s with length := setLow (Memory.read s.buf 2) s.length }, at_ := .hSf2 }
  | .hSf2 => { m with st := { s with startFlag2 := Memory.read s.buf 3 }, at_ := .hAd 0 }
  | .hAd i =>
    { m with
      st := { s with address := s.address.set i (Memory.read s.buf (4 + i)) }
      at_ := if i = 7 then .hAfn else .hAd (i + 1) }
  | .hAfn => { m with st := { s with functionCode := Memory.read s.buf 12 }, at_ := .hSq0 }
  | .hSq0 => { m with st := { s with sequence := s.sequence.set 0 (Memory.read s.buf 13) }, at_ := .hSq1 }
  | .hSq1 =>
    { m with
      st := { s with sequence := s.sequence.set 1 (Memory.read s.buf 14), hdrValid := true, off := 15, phase := .scan }
      at_ := .uChk }
  | _ => m

/-- The data unit's schedule (R124). -/
def microUnit (m : Micro) : Micro :=
  let s := m.st
  let w := m.work
  let b := Memory.read s.buf s.off
  match m.at_ with
  | .uChk =>
    if remaining s s.off < 4 then microStop .unitHeader m
    else { m with at_ := .uDah, work := { w with unitOff := s.off } }
  | .uDah => { st := advance s, at_ := .uDal, work := { w with daH := b } }
  | .uDal => { st := advance s, at_ := .uDt1, work := { w with daL := b, tabno := tabnoWord w.daH b } }
  | .uDt1 => { st := advance s, at_ := .uDt0, work := { w with typeWord := setHigh b w.typeWord } }
  | .uDt0 =>
    let t := setLow b w.typeWord
    let m' : Micro := { st := advance s, at_ := .uV3, work := { w with typeWord := t, kind := kindOfType t } }
    if kindOfType t = .text then
      if remaining m'.st m'.st.off < 2 then microStop .textPrefix m' else { m' with at_ := .uTl1 }
    else if remaining m'.st m'.st.off < 4 then microStop .fixedValue m'
    else m'
  | .uTl1 => { st := advance s, at_ := .uTl0, work := { w with textLen := setHigh b w.textLen } }
  | .uTl0 =>
    let len := setLow b w.textLen
    let s' := advance s
    let w' := { w with textLen := len, text := [], declLen := len }
    if remaining s' s'.off < len.toNat then microStop .textBytes { st := s', at_ := .uTl0, work := w' }
    else textOrOn len.toNat s' w'
  | .uTxt left =>
    textOrOn (left - 1) (advance s) (if isAscii b = true then { w with text := w.text ++ [b] } else w)
  | .uV3 => { st := advance s, at_ := .uV2, work := { w with w := shiftIn w.w b } }
  | .uV2 => { st := advance s, at_ := .uV1, work := { w with w := shiftIn w.w b } }
  | .uV1 => { st := advance s, at_ := .uV0, work := { w with w := shiftIn w.w b } }
  | .uV0 => afterValue (advance s) { w with w := shiftIn w.w b, declLen := 4 }
  | .uRc =>
    if remaining s s.off < 1 then microStop .resultCode m
    else { st := advance s, at_ := .uApp, work := { w with resultCode := b, rcValid := true } }
  | .uApp => { m with st := appendRecord (workRecord w) s.off s, at_ := .uChk }
  | _ => m

/-- The trailer's schedule (R135). -/
def microTrailer (m : Micro) : Micro :=
  let s := m.st
  let b := Memory.read s.buf s.off
  match m.at_ with
  | .tChk =>
    if 2 ≤ remaining s s.off then { m with at_ := .tCrc1 } else { m with st := { s with crcValid := false }, at_ := .tChk2 }
  | .tCrc1 => { m with st := { advance s with crc := setHigh b s.crc }, at_ := .tCrc0 }
  | .tCrc0 => { m with st := { advance s with crc := setLow b s.crc, crcValid := true }, at_ := .tChk2 }
  | .tChk2 =>
    if 1 ≤ remaining s s.off then { m with at_ := .tEnd }
    else { m with st := { s with endValid := false, phase := .done }, at_ := .parked }
  | .tEnd => { m with st := { advance s with endFlag := b, endValid := true, phase := .done }, at_ := .parked }
  | _ => m

/-- One micro-step: one row of the schedule the micro-state belongs to. -/
def microStep (m : Micro) : Micro :=
  match m.st.phase with
  | .header => microHeader m
  | .scan => microUnit m
  | .trailer => microTrailer m
  | .idle => m
  | .done => m
  | .error => m

/-- `k` micro-steps. -/
def microRun : Nat → Micro → Micro
  | 0, m => m
  | k + 1, m => microRun k (microStep m)

end Sys2Proof.Machine
end

