-- ==== Sys2Proof/Safety.lean ====
section
/-! DEFINITION. What counts as a legal state of the block, and when two states are at the same point of the same decode.
These are the terms the statements use. -/

namespace Sys2Proof.Safety

open Sys2Proof.Machine

/-- The value shape, and the declared length, that a kind's records carry (R27, R112, R115, R116). -/
def valueOk : Kind → Value → Word16 → Prop
  | .text, .text chars, len => (∀ c ∈ chars, isAscii c = true) ∧ chars.length ≤ len.toNat
  | .uint, .unsigned _, len => len = 4
  | .int, .signed _, len => len = 4
  | .enum, .signed _, len => len = 4
  | .dflt, .signed _, len => len = 4
  | _, _, _ => False

/-- What holds of every record in the queue (R27, R29, R66, R140): KIND and TABNO are functions of the unit header, the
value has the kind's shape, a result code is there exactly when the frame's gate holds. -/
structure RecordOk (gate : Bool) (r : Record) : Prop where
  kind : r.kind = kindOfType r.typeWord
  tabno : r.tabno = tabnoWord r.daH r.daL
  value : valueOk r.kind r.value r.declLen
  resultCode : r.resultCode.isSome = gate

/-- The spans of consecutive records are adjacent, from `start` to `stop` (R121). -/
def adjacent : Nat → List Record → Nat → Prop
  | start, [], stop => start = stop
  | start, r :: rs, stop => r.unitOff = start ∧ adjacent (start + r.span) rs stop

/-- Where the scan stands when it stops, relative to `u`, the offset of the unit it stopped in: the table of R123, with the
offset not rewound (the spec's decision D7, log 10). -/
def stoppedAt (c : StopCause) (u scanOff n : Nat) : Prop :=
  match c with
  | .none => False
  | .unitHeader => scanOff = u ∧ n - scanOff < 4
  | .textPrefix => scanOff = u + 4 ∧ n - scanOff < 2
  | .textBytes => scanOff = u + 6 ∧ n - scanOff < 65535
  | .fixedValue => scanOff = u + 4 ∧ n - scanOff < 4
  | .resultCode => u + 6 ≤ scanOff ∧ n - scanOff = 0

/-- The phases a decode reaches only after its header was read. -/
abbrev pastHeader (p : Phase) : Prop := p = .scan ∨ p = .trailer ∨ p = .done

/-- What the rules say of the results of a decode between two operations, as long as the host keeps the buffer stable
(R13, R28, R30, R121, R123). -/
structure Results (s : State) : Prop where
  short : s.phase = .error → s.n < 15
  long : pastHeader s.phase → 15 ≤ s.n
  quiet : ¬ pastHeader s.phase → s.off = 0 ∧ s.units = []
  scanning : s.phase = .scan → adjacent 15 s.units s.off
  stopped : s.phase = .trailer →
    s.off = s.scanOff ∧ ∃ u, adjacent 15 s.units u ∧ stoppedAt s.stopCause u s.scanOff s.n
  finished : s.phase = .done →
    s.off = s.scanOff + (if s.crcValid = true then 2 else 0) + (if s.endValid = true then 1 else 0) ∧
      ∃ u, adjacent 15 s.units u ∧ stoppedAt s.stopCause u s.scanOff s.n
  records : ∀ r ∈ s.units, RecordOk s.gate r
  count : s.unitCount = s.units.length
  queue : s.duq <:+ s.units
  text : s.txq <:+ s.units.flatMap Record.chars

/-- What still holds of the results of a decode the host disturbed (R193): they fit the widths of their registers (R31), the
model's choice (log 7). -/
structure Widths (s : State) : Prop where
  unitCount : s.unitCount < 2 ^ s.cfg.offw
  scanOff : s.scanOff < 2 ^ s.cfg.offw
  units : ∀ r ∈ s.units, r.unitOff < 2 ^ s.cfg.offw
  duq : ∀ r ∈ s.duq, r.unitOff < 2 ^ s.cfg.offw

/-- The legal states: what the rules say holds at every point between two operations (R13, R14, R22, R23, R24, R32, R33),
with `Results` unless the host has disturbed the decode (R193). That the valid bits and codes agree with PHASE in a disturbed
decode too, where R193 and U1 leave every result open, is the model's choice (log 7). -/
structure Inv (s : State) : Prop where
  cfg : s.cfg.wf
  buf : Memory.wf s.buf
  nNextFits : s.nNext < 2 ^ s.cfg.offw
  nFits : s.n < 2 ^ s.cfg.offw
  offLe : s.off ≤ s.n
  error : s.errCode = .truncatedHeader ↔ s.phase = .error
  header : s.hdrValid = true ↔ pastHeader s.phase
  stop : s.stopCause ≠ .none ↔ s.phase = .trailer ∨ s.phase = .done
  crc : s.crcValid = true → s.phase = .done
  endFlag : s.endValid = true → s.phase = .done
  idle : s.phase = .idle → s.disturbed = false
  results : s.disturbed = false → Results s
  widths : s.disturbed = true → Widths s

/-- The seven header registers agree. -/
structure SameHeader (s t : State) : Prop where
  startFlag : s.startFlag = t.startFlag
  length : s.length = t.length
  startFlag2 : s.startFlag2 = t.startFlag2
  address : s.address = t.address
  functionCode : s.functionCode = t.functionCode
  sequence : s.sequence = t.sequence

/-- Two states are at the same point of the same decode (R2): everything a decode reads, and everything it delivers that
holds a value, agrees. Not compared: what the host has popped, N_NEXT, read data, buffer bytes at or beyond N, registers
that hold no value (R25). -/
structure SameDecode (s t : State) : Prop where
  rcGate : s.cfg.rcGate = t.cfg.rcGate
  n : s.n = t.n
  buf : ∀ a, a < s.n → Memory.read s.buf a = Memory.read t.buf a
  off : s.off = t.off
  phase : s.phase = t.phase
  disturbed : s.disturbed = t.disturbed
  hdrValid : s.hdrValid = t.hdrValid
  header : pastHeader s.phase → SameHeader s t
  crcValid : s.crcValid = t.crcValid
  crc : s.crcValid = true → s.crc = t.crc
  endValid : s.endValid = t.endValid
  endFlag : s.endValid = true → s.endFlag = t.endFlag
  units : s.units = t.units
  unitCount : s.unitCount = t.unitCount
  errCode : s.errCode = t.errCode
  stopCause : s.stopCause = t.stopCause
  scanOff : s.stopCause ≠ .none → s.scanOff = t.scanOff

/-- A decode is over (R157). -/
abbrev ended (s : State) : Prop := s.phase = .done ∨ s.phase = .error

/-- The fields of the unit header a data-unit operation stands for, and the kind it selects (R62, R63). -/
structure UnitForm where
  daH : Byte
  daL : Byte
  typeWord : Word16
  kind : Kind
deriving DecidableEq, Repr

/-- The unit form of each operation; none for the operations no unit header selects. -/
def unitForm : Instr → Option UnitForm
  | .duInt h l => some ⟨h, l, 0x0001, .int⟩
  | .duText h l => some ⟨h, l, 0x0002, .text⟩
  | .duEnum h l => some ⟨h, l, 0x0004, .enum⟩
  | .duUint h l => some ⟨h, l, 0x0008, .uint⟩
  | .duDflt h l t => some ⟨h, l, t, .dflt⟩
  | .hdr => none
  | .trl => none
  | .reset => none
  | .start => none
  | .duPop => none
  | .txPop => none

/-- 1 when every unit of the frame carries a result-code byte, else 0 (R66, R74). -/
def gateBytes (s : State) : Nat := if s.gate = true then 1 else 0

/-- `BUF[a]` as a number from 0 to 255 (00_scope.md section 6). -/
abbrev bufNat (s : State) (a : Nat) : Nat := (Memory.read s.buf a).toNat

/-- The host accesses: every event but the reset input and the wait (R159). -/
def hostAccess : HostEvent → Bool
  | .reset => false
  | .wait => false
  | .write _ => true
  | .read _ => true
  | .place _ _ => true

end Sys2Proof.Safety
end

