-- ==== Sys2Proof/Certificates/Slice0/Obligations.lean ====
section
/-! DEFINITION. The statements for the provers. Each docstring names the passage of spec/ it rests on, and says where a
clause is a decision of the spec or a choice of the model. `s.disturbed = false` says that the host has kept its duty of
R193 in this decode; the last section says what holds of a decode in which it has not. -/

open Sys2Proof Sys2Proof.Machine Sys2Proof.Safety

/-! ## Encoding -/

/-- 30_encoding.md (R62, R63, R77): no bit of an encoding is dropped. -/
def Obligations.DecodeOfEncodeIsIdentity : Prop :=
  ∀ i : Instr, i.wellFormed = true → decode (encode i) = .ok i

/-- 30_encoding.md (R62, R63): every four bytes are the encoding of exactly the operation they decode to. -/
def Obligations.UnitHeadersHaveOneMeaning : Prop :=
  ∀ (bytes rest : List Byte) (i : Instr), decodeUnit bytes = .ok (i, rest) →
    i.wellFormed = true ∧ ∃ unit, encode i = .unit unit ∧ unit.length = 4 ∧ bytes = unit ++ rest

/-- R63: the dispatch is equality on all sixteen bits of the type word; everything else is the fallback. -/
def Obligations.TypeWordSelectsTheOperation : Prop :=
  ∀ h l t1 t0 : Byte,
    decode (.unit [h, l, t1, t0]) = .ok (
      if t1.toNat * 256 + t0.toNat = 1 then .duInt h l
      else if t1.toNat * 256 + t0.toNat = 2 then .duText h l
      else if t1.toNat * 256 + t0.toNat = 4 then .duEnum h l
      else if t1.toNat * 256 + t0.toNat = 8 then .duUint h l
      else .duDflt h l (BitVec.ofNat 16 (t1.toNat * 256 + t0.toNat)))

/-- 41_data_unit_scanner.md, the worked examples of R105 to R109, and 95_test_vectors.md V-F2: a few unit headers written
out byte by byte. -/
def Obligations.SampleUnitHeadersDecode : Prop :=
  decode (.unit [0x01, 0x08, 0x00, 0x01]) = .ok (.duInt 0x01 0x08) ∧
  decode (.unit [0x01, 0x03, 0x00, 0x02]) = .ok (.duText 0x01 0x03) ∧
  decode (.unit [0x01, 0x05, 0x00, 0x04]) = .ok (.duEnum 0x01 0x05) ∧
  decode (.unit [0x02, 0x01, 0x00, 0x08]) = .ok (.duUint 0x02 0x01) ∧
  decode (.unit [0x00, 0x00, 0x12, 0x34]) = .ok (.duDflt 0x00 0x00 0x1234) ∧
  decode (.unit [0x01, 0x01, 0x01, 0x01]) = .ok (.duDflt 0x01 0x01 0x0101)

/-! ## The step -/

/-- 44_host_operations.md (R157), 10_state.md (R14), 41_data_unit_scanner.md (R100, R101): with no host event pending, a
step is exec of the operation the phase or the unit header selects; with fewer than four bytes left the scan stops with
cause 1 (no kind is known, log 21) unless the host has disturbed the decode; at rest nothing happens. -/
def Obligations.StepRunsTheSelectedOperation : Prop :=
  ∀ s : State, s.pending = [] →
    (s.phase = .header → step s = exec .hdr s) ∧
    (∀ i, s.phase = .scan → 4 ≤ s.n - s.off →
      decodeUnit (Memory.readBytes s.buf s.off 4) = .ok (i, []) → step s = exec i s) ∧
    (s.phase = .scan → s.disturbed = false → s.n - s.off < 4 →
      step s = .next { s with stopCause := .unitHeader, scanOff := s.off, phase := .trailer }) ∧
    (s.phase = .trailer → step s = exec .trl s) ∧
    (s.phase = .idle ∨ s.phase = .done ∨ s.phase = .error → step s = .next s)

/-- 44_host_operations.md (R150 to R156), log 1: the oldest host event is consumed and, where it selects an operation, that
operation is run; a wait lets the decoder run. -/
def Obligations.StepConsumesTheOldestHostEvent : Prop :=
  ∀ (s : State) (rest : List HostEvent),
    (∀ e, s.pending = e :: rest → step s = hostStep e { s with pending := rest }) ∧
    (s.pending = .reset :: rest → step s = exec .reset { s with pending := rest }) ∧
    (∀ data : Word32, data.getLsbD 0 = true →
      (s.pending = .write ⟨0, data⟩ :: rest → step s = exec .start { s with pending := rest }) ∧
      (s.pending = .write ⟨16, data⟩ :: rest → step s = exec .duPop { s with pending := rest }) ∧
      (s.pending = .write ⟨18, data⟩ :: rest → step s = exec .txPop { s with pending := rest })) ∧
    (s.pending = .wait :: rest → step s = decoderStep { s with pending := rest })

/-- 10_state.md (R14), the model's choice of log 9: outside its phase a decoder operation is refused by name. -/
def Obligations.DecoderOperationsAreRefusedOutsideTheirPhase : Prop :=
  ∀ s : State,
    (s.phase ≠ .header → exec .hdr s = .refused .notEnabled) ∧
    (∀ i f, unitForm i = some f → s.phase ≠ .scan → exec i s = .refused .notEnabled) ∧
    (s.phase ≠ .trailer → exec .trl s = .refused .notEnabled)

/-! ## Header reader -/

/-- R90: HDR, both outcomes, with every field it writes and everything else as before. The values are the buffer's bytes,
LENGTH big-endian, DIRECTION bit 7 of byte 12. No byte is compared with anything. -/
def Obligations.HeaderReaderDeliversTheHeader : Prop :=
  ∀ s : State, s.phase = .header → s.disturbed = false →
    (s.n < 15 → exec .hdr s = .next { s with errCode := .truncatedHeader, phase := .error }) ∧
    (15 ≤ s.n → ∃ t, exec .hdr s = .next t ∧
      t.startFlag = Memory.read s.buf 0 ∧
      t.length.toNat = bufNat s 1 * 256 + bufNat s 2 ∧
      t.startFlag2 = Memory.read s.buf 3 ∧
      (∀ i : Fin 8, t.address[i] = Memory.read s.buf (4 + i)) ∧
      t.functionCode = Memory.read s.buf 12 ∧
      t.direction = decide (bufNat s 12 / 128 % 2 = 1) ∧
      (∀ i : Fin 2, t.sequence[i] = Memory.read s.buf (13 + i)) ∧
      t = { s with
        startFlag := t.startFlag, length := t.length, startFlag2 := t.startFlag2, address := t.address,
        functionCode := t.functionCode, sequence := t.sequence, hdrValid := true, off := 15, phase := .scan })

/-- R165: the one error is raised by HDR and by no other operation, exactly when N is below 15, as long as the host keeps the
buffer stable (R193 leaves open which error ends a decode otherwise). -/
def Obligations.OnlyTheHeaderReaderRaises : Prop :=
  (∀ (i : Instr) (s t : State), s.disturbed = false → exec i s = .next t →
    (s.phase ≠ .error → t.phase = .error → i = .hdr ∧ s.n < 15) ∧
    (s.errCode ≠ .truncatedHeader → t.errCode = .truncatedHeader → i = .hdr ∧ s.n < 15)) ∧
  (∀ s t : State, s.phase = .header → s.disturbed = false → exec .hdr s = .next t → (t.phase = .error ↔ s.n < 15))

/-- R93: a buffer that ends right after the header decodes to a Frame with no data units and no trailer fields. -/
def Obligations.HeaderOnlyBufferDecodesToEmptyFrame : Prop :=
  ∀ s : State, Inv s → s.phase = .header → s.disturbed = false → s.n = 15 → s.pending = [] →
    ∃ t f, Host.Core.run core 3 s = .next t ∧ t.observe = some (.frame f) ∧
      f.startFlag = Memory.read s.buf 0 ∧ f.length = bufNat s 1 * 256 + bufNat s 2 ∧
      f.startFlag2 = Memory.read s.buf 3 ∧ (∀ i : Fin 8, f.address[i] = Memory.read s.buf (4 + i)) ∧
      f.functionCode = Memory.read s.buf 12 ∧ f.direction = (Memory.read s.buf 12).getLsbD 7 ∧
      (∀ i : Fin 2, f.sequence[i] = Memory.read s.buf (13 + i)) ∧
      f.dataUnits = [] ∧ f.crc = none ∧ f.endFlag = none ∧
      t.stopCause = .unitHeader ∧ t.errCode = .none ∧ t.off = 15

/-! ## Data-unit scanner -/

/-- R112: the value of a fixed-kind unit is the big-endian word, signed for INT, ENUM and DFLT, unsigned for UINT; with the
rest of the appended record, the offset past the unit, and everything else as before (TXQ and PHASE among it). -/
def Obligations.FixedKindUnitsAreAppended : Prop :=
  ∀ (i : Instr) (f : UnitForm) (s : State) (w : Nat),
    unitForm i = some f → f.kind ≠ .text → s.phase = .scan → s.disturbed = false → 8 + gateBytes s ≤ s.n - s.off →
    w = bufNat s (s.off + 4) * 2 ^ 24 + bufNat s (s.off + 5) * 2 ^ 16 + bufNat s (s.off + 6) * 2 ^ 8
      + bufNat s (s.off + 7) →
    ∃ r : Record,
      exec i s = .next { s with
        off := s.off + 8 + gateBytes s, units := s.units ++ [r], duq := s.duq ++ [r], unitCount := s.unitCount + 1 } ∧
      r.unitOff = s.off ∧ r.daH = f.daH ∧ r.daL = f.daL ∧ r.tabno.toInt = tabno f.daH f.daL ∧
      r.typeWord = f.typeWord ∧ r.kind = f.kind ∧ r.declLen = 4 ∧
      r.value.denote = (if f.kind = .uint then .unsignedInt w
        else .signedInt (if w < 2 ^ 31 then (w : Int) else (w : Int) - 2 ^ 32)) ∧
      r.valueWord.toNat = w ∧
      r.resultCode = (if s.gate = true then some (Memory.read s.buf (s.off + 8)) else none)

/-- 41_data_unit_scanner.md (R106, R113 to R116, R120), with the ASCII range of 93_implementation_defined.md G1 (PRESUMED,
log 13): a text unit keeps the bytes below 0x80 in order, consumes all of them, and declares the parsed length. -/
def Obligations.TextUnitsAreAppended : Prop :=
  ∀ (h l : Byte) (s : State) (len : Nat) (chars : List Byte),
    s.phase = .scan → s.disturbed = false → len = bufNat s (s.off + 4) * 256 + bufNat s (s.off + 5) →
    6 + len + gateBytes s ≤ s.n - s.off →
    chars = (Memory.readBytes s.buf (s.off + 6) len).filter (fun b => b.toNat < 128) →
    ∃ r : Record,
      exec (.duText h l) s = .next { s with
        off := s.off + 6 + len + gateBytes s, units := s.units ++ [r], duq := s.duq ++ [r], txq := s.txq ++ chars,
        unitCount := s.unitCount + 1 } ∧
      r.unitOff = s.off ∧ r.daH = h ∧ r.daL = l ∧ r.tabno.toInt = tabno h l ∧ r.typeWord = 2 ∧ r.kind = .text ∧
      r.declLen.toNat = len ∧ r.value = .text chars ∧ r.textKept = chars.length ∧
      r.resultCode = (if s.gate = true then some (Memory.read s.buf (s.off + 6 + len)) else none)

/-- 41_data_unit_scanner.md (R101, R104, R110, R111, R119, R123), offset not rewound: the spec's decision D7 (log 10). The
stops of a fixed-kind unit, the first failing check deciding the cause; no record, no character, no count. -/
def Obligations.FixedKindUnitsStopTheScan : Prop :=
  ∀ (i : Instr) (f : UnitForm) (s : State), unitForm i = some f → f.kind ≠ .text → s.phase = .scan →
    s.disturbed = false →
    (s.n - s.off < 4 →
      exec i s = .next { s with stopCause := .unitHeader, scanOff := s.off, phase := .trailer }) ∧
    (4 ≤ s.n - s.off → s.n - s.off < 8 →
      exec i s = .next { s with
        off := s.off + 4, stopCause := .fixedValue, scanOff := s.off + 4, phase := .trailer }) ∧
    (s.gate = true → s.n - s.off = 8 →
      exec i s = .next { s with
        off := s.off + 8, stopCause := .resultCode, scanOff := s.off + 8, phase := .trailer })

/-- 41_data_unit_scanner.md (R101, R104, R110, R113, R114, R119, R123), the spec's decisions D7 and D8 (log 10, log 11): the
stops of a text unit. -/
def Obligations.TextUnitsStopTheScan : Prop :=
  ∀ (h l : Byte) (s : State) (len : Nat),
    s.phase = .scan → s.disturbed = false → len = bufNat s (s.off + 4) * 256 + bufNat s (s.off + 5) →
    (s.n - s.off < 4 →
      exec (.duText h l) s = .next { s with stopCause := .unitHeader, scanOff := s.off, phase := .trailer }) ∧
    (4 ≤ s.n - s.off → s.n - s.off < 6 →
      exec (.duText h l) s = .next { s with
        off := s.off + 4, stopCause := .textPrefix, scanOff := s.off + 4, phase := .trailer }) ∧
    (6 ≤ s.n - s.off → s.n - s.off < 6 + len →
      exec (.duText h l) s = .next { s with
        off := s.off + 6, stopCause := .textBytes, scanOff := s.off + 6, phase := .trailer }) ∧
    (s.gate = true → s.n - s.off = 6 + len →
      exec (.duText h l) s = .next { s with
        off := s.off + 6 + len, stopCause := .resultCode, scanOff := s.off + 6 + len, phase := .trailer })

/-- R118: the gate under RAW is DIRECTION = 1 and the raw byte equal to 6, which no byte meets; under MASKED it is the byte
0x86. It reads the function byte and the parameter alone. -/
def Obligations.ResultCodeGateFollowsTheRawByte : Prop :=
  ∀ s : State,
    (s.cfg.rcGate = .raw →
      (s.gate = true ↔ s.direction = true ∧ s.functionCode.toNat = 6) ∧ s.gate = false) ∧
    (s.cfg.rcGate = .masked →
      (s.gate = true ↔ s.direction = true ∧ s.functionCode.toNat % 128 = 6) ∧
      (s.gate = true ↔ s.functionCode = 0x86))

/-- 41_data_unit_scanner.md (R118, consequence) and 30_encoding.md (R66): under RAW no operation delivers a result code or
stops for want of one. -/
def Obligations.RawGateNeverYieldsResultCodes : Prop :=
  ∀ (i : Instr) (s t : State), s.cfg.rcGate = .raw → s.disturbed = false → exec i s = .next t →
    (t.stopCause = .resultCode → s.stopCause = .resultCode) ∧
    (∀ r ∈ t.units, r ∈ s.units ∨ r.resultCode = none)

/-- 41_data_unit_scanner.md (R120, R125, R100), 10_state.md (R28): a data-unit operation appends exactly one record or stops
with a cause; what was appended before stays; header, trailer, error and length registers, the buffer, the parameters and
the host's side are as before. The frame of the five data-unit operations. -/
def Obligations.DataUnitOperationsFrame : Prop :=
  ∀ (i : Instr) (f : UnitForm) (s t : State), unitForm i = some f → s.disturbed = false → exec i s = .next t →
    ((∃ r, t = { s with
        off := t.off, units := s.units ++ [r], duq := s.duq ++ [r], txq := s.txq ++ r.chars,
        unitCount := s.unitCount + 1 }) ∨
      (t.stopCause ≠ .none ∧
        t = { s with off := t.off, stopCause := t.stopCause, scanOff := t.off, phase := .trailer })) ∧
    (∀ a, Memory.read t.buf a = Memory.read s.buf a)

/-! ## Trailer reader -/

/-- 42_trailer_reader.md (R130, R131, R132): the trailer by the number of bytes that remain, and everything else as before.
That the register of an absent field, which holds no value (10_state.md, R25; 93_implementation_defined.md, U3), keeps its
bits is the model's choice (log 29). -/
def Obligations.TrailerReaderReadsWhatRemains : Prop :=
  ∀ s : State, s.phase = .trailer → s.disturbed = false → ∃ t, exec .trl s = .next t ∧ t.phase = .done ∧
    (t.crcValid = true ↔ 2 ≤ s.n - s.off) ∧
    (2 ≤ s.n - s.off → t.crc.toNat = bufNat s s.off * 256 + bufNat s (s.off + 1)) ∧
    (s.n - s.off < 2 → t.crc = s.crc) ∧
    (t.endValid = true ↔ s.n - s.off = 1 ∨ 3 ≤ s.n - s.off) ∧
    (s.n - s.off = 1 → t.endFlag = Memory.read s.buf s.off) ∧
    (3 ≤ s.n - s.off → t.endFlag = Memory.read s.buf (s.off + 2)) ∧
    (s.n - s.off = 0 ∨ s.n - s.off = 2 → t.endFlag = s.endFlag) ∧
    t.off = s.off + min (s.n - s.off) 3 ∧
    t = { s with
      crc := t.crc, crcValid := t.crcValid, endFlag := t.endFlag, endValid := t.endValid, off := t.off, phase := .done }

/-- R168: a stopped scan ends in a Frame, with no error, whatever the stop cause and however short the trailer. The Frame is
given field by field (44_host_operations.md, R160): the header registers, one DataUnit per appended record in append order
with the record's fields as numbers, and the trailer's bytes, null where they are absent. -/
def Obligations.StoppedScanEndsInAFrame : Prop :=
  ∀ s : State, Inv s → s.phase = .trailer → s.disturbed = false → s.pending = [] →
    ∃ t f, step s = .next t ∧ t.phase = .done ∧ t.errCode = .none ∧ t.stopCause = s.stopCause ∧ t.stopCause ≠ .none ∧
      t.observe = some (.frame f) ∧
      f.startFlag = s.startFlag ∧ f.length = s.length.toNat ∧ f.startFlag2 = s.startFlag2 ∧ f.address = s.address ∧
      f.functionCode = s.functionCode ∧ f.direction = s.functionCode.getLsbD 7 ∧ f.sequence = s.sequence ∧
      f.dataUnits.length = s.units.length ∧
      (∀ (k : Nat) (r : Record), s.units[k]? = some r → ∃ u : DataUnit, f.dataUnits[k]? = some u ∧
        u.addressCode = (r.daH, r.daL) ∧ u.tableNumber = r.tabno.toInt ∧ u.tableNumber = tabno r.daH r.daL ∧
        u.typeCode = r.typeWord.toNat ∧ u.kind = r.kind ∧ u.resultCode = r.resultCode ∧
        u.declaredLength = r.declLen.toNat ∧
        (∀ w, r.value = .signed w →
          u.value = .signedInt (if w.toNat < 2 ^ 31 then (w.toNat : Int) else (w.toNat : Int) - 2 ^ 32)) ∧
        (∀ w, r.value = .unsigned w → u.value = .unsignedInt w.toNat) ∧
        (∀ chars, r.value = .text chars → u.value = .text chars)) ∧
      f.crc = (if 2 ≤ s.n - s.off then some (bufNat s s.off * 256 + bufNat s (s.off + 1)) else none) ∧
      f.endFlag = (if s.n - s.off = 1 then some (Memory.read s.buf s.off)
        else if 3 ≤ s.n - s.off then some (Memory.read s.buf (s.off + 2)) else none)

/-! ## Table number -/

/-- R140: the sum over the set bits of DA_L of `base + i`, over the integers. -/
def Obligations.TableNumberIsTheSumOverSetBits : Prop :=
  ∀ h l : Byte, tabno h l =
    ((List.range 8).map fun i =>
      if l.toNat.testBit i = true then (((h.toNat : Int) - 1) * 8 + 1) + (i : Int) else 0).sum

/-- 43_address_table_decoder.md (R141, and R143's reading of DA_H = 0, the spec's decision D9, log 12): the closed form, the
range, and that the 16-bit register holds the number exactly. -/
def Obligations.TableNumberClosedFormAndRange : Prop :=
  ∀ h l : Byte,
    tabno h l = ((List.range 8).countP l.toNat.testBit : Int) * (8 * (h.toNat : Int) - 7)
      + (((List.range 8).filter l.toNat.testBit).sum : Nat) ∧
    -28 ≤ tabno h l ∧ tabno h l ≤ 16292 ∧ (tabnoWord h l).toInt = tabno h l

/-- R142, R146: no bit set gives 0 for every DA_H, and so does (0, 0x80); the document's three examples. -/
def Obligations.TableNumberExamples : Prop :=
  (∀ h : Byte, tabno h 0 = 0) ∧ tabno 0 0x80 = 0 ∧
  tabno 1 0x01 = 1 ∧ tabno 2 0x01 = 9 ∧ tabno 1 0x03 = 3

/-! ## Host operations -/

/-- 44_host_operations.md (R150) and 10_state.md (R39), the spec's decision D19: RESET completes in every state and leaves
these values; the buffer, the parameters and the host's side are as before. Nothing is said of the registers R39 leaves
unspecified. -/
def Obligations.ResetLeavesTheIdleState : Prop :=
  ∀ s : State, ∃ t, exec .reset s = .next t ∧
    t.phase = .idle ∧ t.off = 0 ∧ t.n = 0 ∧ t.nNext = 0 ∧ t.hdrValid = false ∧ t.crcValid = false ∧
    t.endValid = false ∧ t.errCode = .none ∧ t.stopCause = .none ∧ t.unitCount = 0 ∧ t.units = [] ∧ t.duq = [] ∧
    t.txq = [] ∧ t.disturbed = false ∧ t.buf = s.buf ∧ t.cfg = s.cfg ∧ t.pending = s.pending ∧ t.hostData = s.hostData

/-- 10_state.md (R39), the spec's decision D19: the initial state has the values R39 gives. -/
def Obligations.InitialStateHasTheResetValues : Prop :=
  State.reset.phase = .idle ∧ State.reset.off = 0 ∧ State.reset.n = 0 ∧ State.reset.nNext = 0 ∧
  State.reset.hdrValid = false ∧ State.reset.crcValid = false ∧ State.reset.endValid = false ∧
  State.reset.errCode = .none ∧ State.reset.stopCause = .none ∧ State.reset.unitCount = 0 ∧ State.reset.units = [] ∧
  State.reset.duq = [] ∧ State.reset.txq = [] ∧ State.reset.busy = false ∧ State.reset.disturbed = false

/-- 44_host_operations.md (R151 to R153), the spec's decision D18: START begins a decode in IDLE, DONE and ERROR, clears every
result (the return from the error, R172), and is ignored while BUSY. Everything not written is as before; that this holds of
the header fields, CRC, END_FLAG and SCAN_OFF, which keep no meaning (R152), is the model's choice (log 28). -/
def Obligations.StartBeginsADecodeUnlessBusy : Prop :=
  ∀ s : State,
    (s.phase = .idle ∨ s.phase = .done ∨ s.phase = .error →
      exec .start s = .next { s with
        n := s.nNext, off := 0, hdrValid := false, crcValid := false, endValid := false, errCode := .none,
        stopCause := .none, unitCount := 0, units := [], duq := [], txq := [], disturbed := false, phase := .header }) ∧
    (s.phase = .header ∨ s.phase = .scan ∨ s.phase = .trailer → exec .start s = .next s)

/-- 44_host_operations.md (R155, R156), the spec's decision D16: a pop removes the head and nothing else, in every phase, and
is ignored on an empty queue. UNIT_COUNT, the Frame's records and the other queue stay. -/
def Obligations.PopsRemoveTheHead : Prop :=
  ∀ s : State,
    (∀ r rest, s.duq = r :: rest → exec .duPop s = .next { s with duq := rest }) ∧
    (s.duq = [] → exec .duPop s = .next s) ∧
    (∀ c rest, s.txq = c :: rest → exec .txPop s = .next { s with txq := rest }) ∧
    (s.txq = [] → exec .txPop s = .next s)

/-- 10_state.md (R34, R35) and 44_host_operations.md (R153, R154), the spec's decisions D4 and D18: a write that selects no
operation changes N_NEXT, if it is to BUFLEN, or nothing; a register above 18 is refused (U7). -/
def Obligations.OtherRegisterWrites : Prop :=
  ∀ (reg : Nat) (data : Word32) (s : State),
    (reg = 1 → hostStep (.write ⟨reg, data⟩) s = .next { s with nNext := data.toNat % 2 ^ s.cfg.offw }) ∧
    (reg ≤ 18 → reg ≠ 1 → (data.getLsbD 0 = false ∨ reg ≠ 0 ∧ reg ≠ 16 ∧ reg ≠ 18) →
      hostStep (.write ⟨reg, data⟩) s = .next s) ∧
    (18 < reg → hostStep (.write ⟨reg, data⟩) s = .refused .noSuchRegister)

/-- 10_state.md (R34, R36) and 70_reset_and_hazards.md (R195), the spec's decision D4: a read answers for HR0 to HR18 and
disturbs nothing; the read data and the free-value counter are the model's own (log 4, log 20); a register above 18 is
refused (U7). -/
def Obligations.RegisterReadsDisturbNothing : Prop :=
  ∀ (reg : Nat) (s : State),
    (reg ≤ 18 → ∃ data, hostStep (.read reg) s = .next { s with hostData := data, draws := s.draws + 1 }) ∧
    (18 < reg → hostStep (.read reg) s = .refused .noSuchRegister)

/-- 10_state.md (R34, HR2), the spec's decisions D4 and D6: the fields of STATUS, with the codes of PHASE (R14), STOP_CAUSE
(R33) and ERR_CODE (R32) as numbers; DIRECTION only while HDR_VALID = 1. -/
def Obligations.StatusRegisterShowsTheFlags : Prop :=
  ∀ s : State, ∃ t, hostStep (.read 2) s = .next t ∧
    (s.phase = .idle → t.hostData.extractLsb' 0 3 = 0) ∧ (s.phase = .header → t.hostData.extractLsb' 0 3 = 1) ∧
    (s.phase = .scan → t.hostData.extractLsb' 0 3 = 2) ∧ (s.phase = .trailer → t.hostData.extractLsb' 0 3 = 3) ∧
    (s.phase = .done → t.hostData.extractLsb' 0 3 = 4) ∧ (s.phase = .error → t.hostData.extractLsb' 0 3 = 5) ∧
    t.hostData.getLsbD 3 = decide (s.phase = .header ∨ s.phase = .scan ∨ s.phase = .trailer) ∧
    t.hostData.getLsbD 4 = decide (s.phase = .done) ∧
    t.hostData.getLsbD 5 = decide (s.phase = .error) ∧ t.hostData.getLsbD 6 = s.hdrValid ∧
    (s.hdrValid = true → t.hostData.getLsbD 7 = s.direction) ∧ t.hostData.getLsbD 8 = s.crcValid ∧
    t.hostData.getLsbD 9 = s.endValid ∧
    (s.stopCause = .none → t.hostData.extractLsb' 10 3 = 0) ∧
    (s.stopCause = .unitHeader → t.hostData.extractLsb' 10 3 = 1) ∧
    (s.stopCause = .textPrefix → t.hostData.extractLsb' 10 3 = 2) ∧
    (s.stopCause = .textBytes → t.hostData.extractLsb' 10 3 = 3) ∧
    (s.stopCause = .fixedValue → t.hostData.extractLsb' 10 3 = 4) ∧
    (s.stopCause = .resultCode → t.hostData.extractLsb' 10 3 = 5) ∧
    (s.errCode = .none → t.hostData.extractLsb' 13 3 = 0) ∧
    (s.errCode = .truncatedHeader → t.hostData.extractLsb' 13 3 = 1) ∧ t.hostData.extractLsb' 16 16 = 0

/-- 10_state.md (R34, HR6 to HR9), the spec's decisions D4 and D11: the header registers while HDR_VALID = 1, first buffer
byte most significant. -/
def Obligations.HeaderRegistersShowTheHeader : Prop :=
  ∀ s : State, s.hdrValid = true →
    (∃ t, hostStep (.read 6) s = .next t ∧
      t.hostData.toNat = s.startFlag.toNat * 2 ^ 24 + s.length.toNat * 2 ^ 8 + s.startFlag2.toNat) ∧
    (∃ t, hostStep (.read 7) s = .next t ∧
      t.hostData.toNat = s.address[0].toNat * 2 ^ 24 + s.address[1].toNat * 2 ^ 16 + s.address[2].toNat * 2 ^ 8
        + s.address[3].toNat) ∧
    (∃ t, hostStep (.read 8) s = .next t ∧
      t.hostData.toNat = s.address[4].toNat * 2 ^ 24 + s.address[5].toNat * 2 ^ 16 + s.address[6].toNat * 2 ^ 8
        + s.address[7].toNat) ∧
    (∃ t, hostStep (.read 9) s = .next t ∧
      t.hostData.toNat = s.functionCode.toNat * 2 ^ 16 + s.sequence[0].toNat * 2 ^ 8 + s.sequence[1].toNat)

/-- 10_state.md (R34, HR10; R36), the spec's decision D4: the trailer register in DONE, field by field under its valid
bit. -/
def Obligations.TrailerRegisterShowsValidFields : Prop :=
  ∀ s : State, s.phase = .done → ∃ t, hostStep (.read 10) s = .next t ∧
    (s.crcValid = true → t.hostData.extractLsb' 8 16 = s.crc) ∧
    (s.endValid = true → t.hostData.extractLsb' 0 8 = s.endFlag) ∧
    t.hostData.extractLsb' 24 8 = 0

/-- 10_state.md (R34, HR11 to HR18), the spec's decisions D4 and D17: the windows on the head record and the head character,
and the AVAIL bits. HR13 shows W of a fixed kind and TEXT_KEPT of a text (R30); KIND and SHAPE are given as numbers (R29).
RESULT_CODE is shown only while RC_VALID = 1. That bit 7 of HR14 reads 0 is the model's deduction (log 27), and so is that
the bits of HR15 at OFFW and above read 0 and that OFFW is at most 32 (log 19). -/
def Obligations.QueueWindowsShowTheHeads : Prop :=
  ∀ s : State,
    (∀ r rest, s.duq = r :: rest →
      (∃ t, hostStep (.read 11) s = .next t ∧
        t.hostData.toNat = r.daH.toNat * 2 ^ 24 + r.daL.toNat * 2 ^ 16 + r.typeWord.toNat) ∧
      (∃ t, hostStep (.read 12) s = .next t ∧ t.hostData.toNat = r.tabno.toNat * 2 ^ 16 + r.declLen.toNat) ∧
      (∃ t, hostStep (.read 13) s = .next t ∧ (∀ w, r.value = .signed w → t.hostData = w) ∧
        (∀ w, r.value = .unsigned w → t.hostData = w) ∧
        ∀ chars, r.value = .text chars → chars.length < 2 ^ 16 → t.hostData.toNat = chars.length) ∧
      (∃ t, hostStep (.read 14) s = .next t ∧ t.hostData.getLsbD 0 = true ∧
        (r.kind = .dflt → t.hostData.extractLsb' 1 3 = 0 ∧ t.hostData.extractLsb' 4 2 = 0) ∧
        (r.kind = .int → t.hostData.extractLsb' 1 3 = 1 ∧ t.hostData.extractLsb' 4 2 = 0) ∧
        (r.kind = .text → t.hostData.extractLsb' 1 3 = 2 ∧ t.hostData.extractLsb' 4 2 = 2) ∧
        (r.kind = .enum → t.hostData.extractLsb' 1 3 = 3 ∧ t.hostData.extractLsb' 4 2 = 0) ∧
        (r.kind = .uint → t.hostData.extractLsb' 1 3 = 4 ∧ t.hostData.extractLsb' 4 2 = 1) ∧
        t.hostData.getLsbD 6 = r.resultCode.isSome ∧ t.hostData.getLsbD 7 = false ∧
        (∀ b, r.resultCode = some b → t.hostData.extractLsb' 8 8 = b) ∧ t.hostData.extractLsb' 16 16 = 0) ∧
      (r.unitOff < 2 ^ s.cfg.offw → s.cfg.offw ≤ 32 →
        ∃ t, hostStep (.read 15) s = .next t ∧ t.hostData.toNat = r.unitOff)) ∧
    (s.duq = [] → ∃ t, hostStep (.read 14) s = .next t ∧ t.hostData.getLsbD 0 = false) ∧
    (∀ c rest, s.txq = c :: rest → ∃ t, hostStep (.read 17) s = .next t ∧ t.hostData.toNat = 256 + c.toNat) ∧
    (s.txq = [] → ∃ t, hostStep (.read 17) s = .next t ∧ t.hostData.getLsbD 8 = false)

/-- 10_state.md (R34, HR1, HR3, HR4, HR5 and the write-only registers), the spec's decision D4: the offset registers show
their quantities, SCANOFF once the scan has stopped; CTRL, DU_POP and TX_POP read 0. The table says of HR1 that the bits at
OFFW and above read 0; that they do in HR3, HR4 and HR5, and that OFFW is at most 32, is the model's deduction (log 19). -/
def Obligations.OffsetRegistersShowTheirQuantities : Prop :=
  ∀ s : State, Inv s →
    (∃ t, hostStep (.read 1) s = .next t ∧ t.hostData.toNat = s.nNext) ∧
    (∃ t, hostStep (.read 3) s = .next t ∧ t.hostData.toNat = s.off) ∧
    (s.stopCause ≠ .none → ∃ t, hostStep (.read 4) s = .next t ∧ t.hostData.toNat = s.scanOff) ∧
    (∃ t, hostStep (.read 5) s = .next t ∧ t.hostData.toNat = s.unitCount) ∧
    (∀ reg, reg = 0 ∨ reg = 16 ∨ reg = 18 → ∃ t, hostStep (.read reg) s = .next t ∧ t.hostData = 0)

/-- 20_memory.md (R40, R49), 70_reset_and_hazards.md (R193, the spec's decision D20) and 93_implementation_defined.md (U1),
with the stop of log 22: what the host places is what a read gives, every other offset and all other state is as before. A
byte of BUF[0..N-1] placed while BUSY = 1 disturbs the decode (log 7): its results are unspecified, so nothing is said of
them, and it goes on from where it stands. -/
def Obligations.HostPlacesBytes : Prop :=
  ∀ (a : Nat) (b : Byte) (s : State),
    (a < 2 ^ s.cfg.offw → (s.busy = false ∨ s.n ≤ a) →
      ∃ m, hostStep (.place a b) s = .next { s with buf := m } ∧ Memory.read m a = b ∧
        ∀ a', a' ≠ a → Memory.read m a' = Memory.read s.buf a') ∧
    (a < s.n → a < 2 ^ s.cfg.offw → s.busy = true →
      ∃ t, hostStep (.place a b) s = .next t ∧ t.disturbed = true ∧ Memory.read t.buf a = b ∧
        (∀ a', a' ≠ a → Memory.read t.buf a' = Memory.read s.buf a') ∧ t.phase = s.phase ∧ t.off = s.off ∧ t.n = s.n ∧
        t.nNext = s.nNext ∧ t.cfg = s.cfg ∧ t.pending = s.pending ∧ t.hostData = s.hostData) ∧
    (2 ^ s.cfg.offw ≤ a → hostStep (.place a b) s = .fault .noSuchOffset)

/-! ## The whole machine -/

/-- R41: no operation stores to the buffer. Every byte reads as before, and so do the build parameters, the host's pending
events and its read data. -/
def Obligations.OperationsNeverWriteTheBuffer : Prop :=
  ∀ (i : Instr) (s t : State), exec i s = .next t →
    t.buf = s.buf ∧ (∀ a, Memory.read t.buf a = Memory.read s.buf a) ∧ t.cfg = s.cfg ∧ t.pending = s.pending ∧
      t.hostData = s.hostData

/-- 44_host_operations.md (R154) and 10_state.md (R11): N changes only at START and RESET, and N_NEXT at no operation but
RESET. -/
def Obligations.LengthIsLatched : Prop :=
  ∀ (i : Instr) (s t : State), exec i s = .next t →
    (t.n ≠ s.n → i = .start ∨ i = .reset) ∧ (t.nNext ≠ s.nNext → i = .reset)

/-- 10_state.md (R14), the spec's decision D6, and R157: the phases a decoder operation leads to; ERROR from SCAN or TRAILER
only where the host has disturbed the decode (R193). -/
def Obligations.PhasesFollowTheRunOrder : Prop :=
  ∀ s t : State, decoderStep s = .next t →
    (s.phase = .header → t.phase = .scan ∨ t.phase = .error) ∧
    (s.phase = .scan → t.phase = .scan ∨ t.phase = .trailer ∨ s.disturbed = true ∧ t.phase = .error) ∧
    (s.phase = .trailer → t.phase = .done ∨ s.disturbed = true ∧ t.phase = .error) ∧
    (s.busy = false → t = s)

/-- 10_state.md (R13, derived there) and 70_reset_and_hazards.md (R193): OFF never decreases in a decode and never passes N,
disturbed or not; an appended unit advances it by at least 6 (41_data_unit_scanner.md, R122). -/
def Obligations.OffsetOnlyGrows : Prop :=
  ∀ s t : State, Inv s → decoderStep s = .next t →
    s.off ≤ t.off ∧ t.off ≤ t.n ∧ t.n = s.n ∧ (s.disturbed = false → t.units ≠ s.units → s.off + 6 ≤ t.off)

/-- 60_exceptions.md (R172), the spec's decision D18, with R159: phase ERROR is left only by START or RESET. -/
def Obligations.ErrorIsLeftOnlyByStartOrReset : Prop :=
  ∀ (e : HostEvent) (s t : State), s.phase = .error → hostStep e s = .next t → t.phase ≠ .error →
    (e = .reset ∧ t.phase = .idle) ∨
    (∃ data : Word32, e = .write ⟨0, data⟩ ∧ data.getLsbD 0 = true ∧ t.phase = .header ∧ t.errCode = .none)

/-- 60_exceptions.md (R175), the spec's decision D23: the output irq is up exactly when a decode has ended, and START and
RESET take it down. -/
def Obligations.IrqIsUpWhileADecodeHasEnded : Prop :=
  ∀ s : State,
    (s.irq = true ↔ s.phase = .done ∨ s.phase = .error) ∧
    (∀ t, s.irq = true → exec .start s = .next t → t.irq = false) ∧
    (∀ t, exec .reset s = .next t → t.irq = false)

/-- The initial state is legal. -/
def Obligations.InitialStateIsLegal : Prop := Inv State.reset

/-- Every step keeps every legal-state clause of `Inv` (R13, R14, R22 to R24, R28, R30, R32, R33, R121, R123): whatever the
phase and whatever the host does. The stop offsets of R123 are not rewound, the spec's decision D7 (log 10). In a decode the
host has disturbed, R193 and U1 leave every result open: that HDR_VALID, ERR_CODE, STOP_CAUSE and the trailer's valid bits
agree with PHASE there too, and that the results fit their widths, is the model's choice (log 7). -/
def Obligations.EveryStepKeepsTheStateLegal : Prop :=
  ∀ s t : State, Inv s → step s = .next t → Inv t

/-- 41_data_unit_scanner.md (R122, derived there) and 10_state.md (R28, R31, log 16): at most floor((N - 15) / 6) records, the
offsets are at most N, and the widths suffice for OFF, SCAN_OFF, UNIT_COUNT and every UNIT_OFF. Of a disturbed decode (R193)
only that the widths suffice, which is the model's choice there (log 7). -/
def Obligations.UnitCountIsBounded : Prop :=
  ∀ s : State, Inv s →
    (s.disturbed = false → s.unitCount = s.units.length ∧ s.unitCount ≤ (s.n - 15) / 6 ∧
      (s.stopCause ≠ .none → s.scanOff ≤ s.n) ∧ (∀ r, r ∈ s.units ∨ r ∈ s.duq → r.unitOff ≤ s.n)) ∧
    s.off < 2 ^ s.cfg.offw ∧ s.unitCount < 2 ^ s.cfg.offw ∧ (s.stopCause ≠ .none → s.scanOff < 2 ^ s.cfg.offw) ∧
      (∀ r, r ∈ s.units ∨ r ∈ s.duq → r.unitOff < 2 ^ s.cfg.offw)

/-- 44_host_operations.md (R157, derived there; R158 for the unbounded queues of log 8): with no host event pending a decode
ends within floor((N - 15) / 6) + 3 operations, in DONE or ERROR, and it observes something. -/
def Obligations.EveryDecodeEnds : Prop :=
  ∀ s : State, s.phase = .header → s.disturbed = false → s.pending = [] →
    ∃ k t, k ≤ (s.n - 15) / 6 + 3 ∧ Host.Core.run core k s = .next t ∧ ended t ∧ t.observe ≠ none ∧
      (t.phase = .error ↔ s.n < 15)

/-- 44_host_operations.md (R152 to R156, R159) and 70_reset_and_hazards.md (R193): while a decode runs, no host access but the
reset input touches it, as long as the host keeps its duty: what it places, it places at N or beyond. -/
def Obligations.HostAccessesLeaveTheDecodeAlone : Prop :=
  ∀ (e : HostEvent) (s t : State), s.busy = true → hostAccess e = true → (∀ a b, e = .place a b → s.n ≤ a) →
    hostStep e s = .next t → SameDecode s t

/-- R2 in one operation: two states at the same point of the same decode stay so. -/
def Obligations.DecoderDependsOnTheDecodeAlone : Prop :=
  ∀ s t s' : State, SameDecode s t → s.disturbed = false → decoderStep s = .next s' →
    (∃ t', decoderStep t = .next t' ∧ SameDecode s' t') ∧ s.observe = t.observe

/-- R2: the outcome of a decode is a function of BUF[0..N-1], N and RC_GATE. Two decodes with equal inputs, one started in any
state and left alone, the other started in any other state with the host making any accesses but a reset and writes into the
frame (R193) while it runs, end with the same observation. -/
def Obligations.OutcomeIsAFunctionOfTheBuffer : Prop :=
  ∀ (s1 s2 t1 t2 u2 : State) (k : Nat),
    s1.busy = false → s2.busy = false → s1.nNext = s2.nNext → s1.cfg.rcGate = s2.cfg.rcGate →
    (∀ a, a < s1.nNext → Memory.read s1.buf a = Memory.read s2.buf a) →
    s1.pending = [] → .reset ∉ s2.pending →
    exec .start s1 = .next t1 → exec .start s2 = .next t2 →
    Host.Core.run core k t2 = .next u2 →
    (∀ j v, j < k → Host.Core.run core j t2 = .next v → Machine.State.busy v = true) → u2.busy = false →
    u2.disturbed = false →
    ∃ k1 u1, Host.Core.run core k1 t1 = .next u1 ∧ u1.observe = u2.observe ∧ u2.observe ≠ none

/-- 40_header_reader.md (R91), 41_data_unit_scanner.md (R124), 42_trailer_reader.md (R135), the spec's decision D5: the byte
schedules, run from the entry of the current phase with any contents of the working registers, reach exactly the state the
whole operation gives, at the entry of the next phase. -/
def Obligations.ByteSchedulesRefineTheOperations : Prop :=
  ∀ (s t : State) (w : Working), s.busy = true → s.disturbed = false → decoderStep s = .next t →
    ∃ k w', 0 < k ∧ microRun k ⟨s, microEntry s.phase, w⟩ = ⟨t, microEntry t.phase, w'⟩

/-! ## A decode the host disturbed -/

/-- 70_reset_and_hazards.md (R193, the spec's decision D20) and 93_implementation_defined.md (U1), as log 7 models them: each
decoder operation completes in its phase also in a disturbed decode; OFF only grows towards N, the next phase is one of those
of the run order or ERROR, and only results are open. -/
def Obligations.DisturbedOperationsRunOn : Prop :=
  ∀ (i : Instr) (s : State), s.disturbed = true →
    s.phase = .header ∧ i = .hdr ∨ s.phase = .scan ∧ (∃ f, unitForm i = some f) ∨ s.phase = .trailer ∧ i = .trl →
    ∃ t, exec i s = .next t ∧ t.disturbed = true ∧ s.off ≤ t.off ∧ (s.off ≤ s.n → t.off ≤ s.n) ∧
      (s.phase = .header → t.phase = .scan ∨ t.phase = .error) ∧
      (s.phase = .scan → t.phase = .scan ∧ s.off < t.off ∨ t.phase = .trailer ∨ t.phase = .error) ∧
      (s.phase = .trailer → t.phase = .done ∨ t.phase = .error) ∧
      t.n = s.n ∧ t.nNext = s.nNext ∧ t.buf = s.buf ∧ t.cfg = s.cfg ∧ t.pending = s.pending ∧ t.hostData = s.hostData

/-- 70_reset_and_hazards.md (R193, the spec's decision D20), "the block still terminates", as log 7 models it: with no host
event pending a disturbed decode ends within N - OFF + 3 operations and observes something, of which nothing is said. -/
def Obligations.DisturbedDecodeEnds : Prop :=
  ∀ s : State, s.busy = true → s.disturbed = true → s.off ≤ s.n → s.pending = [] →
    ∃ k t, k ≤ s.n - s.off + 3 ∧ Host.Core.run core k s = .next t ∧ ended t ∧ t.observe ≠ none

/-- 70_reset_and_hazards.md (R193): nothing but a byte the host places below N while BUSY = 1 disturbs a decode, and START
and RESET begin undisturbed (log 7). -/
def Obligations.OnlyAWriteIntoTheFrameDisturbs : Prop :=
  ∀ (e : HostEvent) (s t : State), hostStep e s = .next t →
    (s.disturbed = false → t.disturbed = true →
      s.busy = true ∧ ∃ a b, e = .place a b ∧ a < s.n) ∧
    (s.disturbed = true → t.disturbed = false →
      e = .reset ∨ s.busy = false ∧ ∃ data : Word32, e = .write ⟨0, data⟩ ∧ data.getLsbD 0 = true)
end

