-- ==== Sys2Proof/Laws/Memory.lean ====
section
/-! SUPPORT. The laws of the frame buffer: reading what was placed, leaving every other offset alone, keeping the canonical
form, and the shape of multi-byte reads. -/

namespace Sys2Proof.Machine

theorem Memory.lookup_place_same (m : Memory) (a : Nat) (b : Byte) : (m.place a b).lookup a = some b := by
  induction m with
  | nil => simp [Memory.place, Memory.lookup]
  | cons c m ih =>
    obtain ⟨c, x⟩ := c
    unfold Memory.place
    split
    · simp [Memory.lookup]
    · split
      · simp [Memory.lookup]
      · rename_i h
        simp [Memory.lookup, Ne.symm h, ih]

theorem Memory.lookup_place_other (m : Memory) (a a' : Nat) (b : Byte) (h : a' ≠ a) :
    (m.place a b).lookup a' = m.lookup a' := by
  induction m with
  | nil => simp [Memory.place, Memory.lookup, Ne.symm h]
  | cons c m ih =>
    obtain ⟨c, x⟩ := c
    unfold Memory.place
    split
    · simp [Memory.lookup, Ne.symm h]
    · split
      · subst_vars
        simp [Memory.lookup, Ne.symm h]
      · simp [Memory.lookup, ih]

@[simp] theorem Memory.read_place_same (m : Memory) (a : Nat) (b : Byte) : Memory.read (m.place a b) a = b := by
  simp [Memory.read, Memory.lookup_place_same]

theorem Memory.read_place_other (m : Memory) (a a' : Nat) (b : Byte) (h : a' ≠ a) :
    Memory.read (m.place a b) a' = Memory.read m a' := by
  simp [Memory.read, Memory.lookup_place_other m a a' b h]

/-- Every offset of the placed form is the new one or was there before. -/
theorem Memory.mem_place {m : Memory} {a : Nat} {b : Byte} {d : Host.Cell} (h : d ∈ m.place a b) :
    d.1 = a ∨ d ∈ m := by
  induction m with
  | nil =>
    simp only [Memory.place, List.mem_singleton] at h
    exact .inl (by rw [h])
  | cons c m ih =>
    obtain ⟨c, x⟩ := c
    unfold Memory.place at h
    split at h
    · rcases List.mem_cons.1 h with h | h
      · exact .inl (by rw [h])
      · exact .inr h
    · split at h
      · rcases List.mem_cons.1 h with h | h
        · exact .inl (by rw [h])
        · exact .inr (List.mem_cons_of_mem _ h)
      · rcases List.mem_cons.1 h with h | h
        · exact .inr (h ▸ List.mem_cons_self)
        · exact (ih h).imp id (List.mem_cons_of_mem _)

theorem Memory.wf_place (m : Memory) (a : Nat) (b : Byte) (h : Memory.wf m) : Memory.wf (m.place a b) := by
  induction m with
  | nil => simp [Memory.place, Memory.wf]
  | cons c m ih =>
    obtain ⟨c, x⟩ := c
    obtain ⟨hc, hm⟩ := List.pairwise_cons.1 h
    unfold Memory.place
    split
    · rename_i hlt
      refine List.pairwise_cons.2 ⟨fun d hd => ?_, h⟩
      rcases List.mem_cons.1 hd with hd | hd
      · rw [hd]; exact hlt
      · exact Nat.lt_trans hlt (hc d hd)
    · split
      · rename_i heq
        subst heq
        exact List.pairwise_cons.2 ⟨hc, hm⟩
      · rename_i hge hne
        refine List.pairwise_cons.2 ⟨fun d hd => ?_, ih hm⟩
        rcases Memory.mem_place hd with hd | hd
        · have : c < a := by omega
          simpa [hd] using this
        · exact hc d hd

theorem Memory.wf_placeAll (bs : List Byte) : ∀ (m : Memory) (a : Nat), Memory.wf m → Memory.wf (m.placeAll a bs) := by
  induction bs with
  | nil => exact fun m a h => h
  | cons b bs ih => exact fun m a h => ih _ _ (Memory.wf_place m a b h)

theorem Memory.read_placeAll_before (bs : List Byte) :
    ∀ (m : Memory) (a a' : Nat), a' < a → Memory.read (m.placeAll a bs) a' = Memory.read m a' := by
  induction bs with
  | nil => exact fun m a a' h => rfl
  | cons b bs ih =>
    intro m a a' h
    rw [Memory.placeAll, ih _ _ _ (by omega), Memory.read_place_other m a a' b (by omega)]

/-- Reading back what was placed. -/
theorem Memory.readBytes_placeAll (bs : List Byte) :
    ∀ (m : Memory) (a : Nat), (m.placeAll a bs).readBytes a bs.length = bs := by
  induction bs with
  | nil => exact fun m a => rfl
  | cons b bs ih =>
    intro m a
    rw [Memory.placeAll, List.length_cons, Memory.readBytes, ih,
      Memory.read_placeAll_before bs _ _ _ (by omega), Memory.read_place_same]

@[simp] theorem Memory.length_readBytes (m : Memory) (n : Nat) : ∀ a, (m.readBytes a n).length = n := by
  induction n with
  | zero => exact fun a => rfl
  | succ n ih => exact fun a => by simp [Memory.readBytes, ih]

theorem Memory.readBytes_append (m : Memory) (n k : Nat) :
    ∀ a, m.readBytes a (n + k) = m.readBytes a n ++ m.readBytes (a + n) k := by
  induction n with
  | zero => intro a; simp [Memory.readBytes]
  | succ n ih =>
    intro a
    rw [Nat.succ_add_eq_add_succ, Nat.add_succ, Memory.readBytes, ih (a + 1), Memory.readBytes, List.cons_append,
      Nat.add_assoc a 1 n, Nat.add_comm 1 n]

/-- Two buffers that agree on a range give the same bytes there. -/
theorem Memory.readBytes_congr {m m' : Memory} (n : Nat) :
    ∀ a, (∀ i, a ≤ i → i < a + n → Memory.read m i = Memory.read m' i) → m.readBytes a n = m'.readBytes a n := by
  induction n with
  | zero => exact fun a _ => rfl
  | succ n ih =>
    intro a h
    rw [Memory.readBytes, Memory.readBytes, h a (by omega) (by omega), ih (a + 1) fun i h1 h2 => h i (by omega) (by omega)]

/-- The `i`-th byte of a multi-byte read. -/
theorem Memory.getElem_readBytes (m : Memory) (n : Nat) :
    ∀ (a i : Nat) (h : i < (m.readBytes a n).length), (m.readBytes a n)[i] = Memory.read m (a + i) := by
  induction n with
  | zero => intro a i h; simp [Memory.readBytes] at h
  | succ n ih =>
    intro a i h
    cases i with
    | zero => simp [Memory.readBytes]
    | succ i => simp only [Memory.readBytes, List.getElem_cons_succ, ih]; congr 1; omega

theorem joinBytes_toNat (hi lo : Byte) : (joinBytes hi lo).toNat = hi.toNat * 256 + lo.toNat := by
  have h : (joinBytes hi lo).toNat = hi.toNat <<< 8 ||| lo.toNat := BitVec.toNat_append ..
  rw [h, ← Nat.shiftLeft_add_eq_or_of_lt lo.isLt, Nat.shiftLeft_eq]

/-- `BE(a, 2) = BUF[a]*256 + BUF[a+1]` (R44). -/
theorem Memory.readBE16_toNat (m : Memory) (a : Nat) :
    (m.readBE16 a).toNat = (Memory.read m a).toNat * 256 + (Memory.read m (a + 1)).toNat := joinBytes_toNat ..

/-- `BE(a, 4)` in terms of two 2-byte numbers (R44). -/
theorem Memory.readBE32_toNat (m : Memory) (a : Nat) :
    (m.readBE32 a).toNat = (m.readBE16 a).toNat * 65536 + (m.readBE16 (a + 2)).toNat := by
  have h : (m.readBE32 a).toNat = (m.readBE16 a).toNat <<< 16 ||| (m.readBE16 (a + 2)).toNat := BitVec.toNat_append ..
  rw [h, ← Nat.shiftLeft_add_eq_or_of_lt (m.readBE16 (a + 2)).isLt, Nat.shiftLeft_eq]

theorem joinBytes_getLsbD (hi lo : Byte) (i : Nat) :
    (joinBytes hi lo).getLsbD i = if i < 8 then lo.getLsbD i else hi.getLsbD (i - 8) := by
  have h : (joinBytes hi lo).getLsbD i = if i < 8 then lo.getLsbD i else hi.getLsbD (i - 8) :=
    BitVec.getLsbD_append
  exact h

@[simp] theorem highByte_joinBytes (hi lo : Byte) : highByte (joinBytes hi lo) = hi := by
  apply BitVec.eq_of_getLsbD_eq
  intro i hi'
  simp [highByte, joinBytes_getLsbD, hi']

@[simp] theorem lowByte_joinBytes (hi lo : Byte) : lowByte (joinBytes hi lo) = lo := by
  apply BitVec.eq_of_getLsbD_eq
  intro i hi'
  rw [lowByte, BitVec.getLsbD_extractLsb', joinBytes_getLsbD]
  simp [hi']

@[simp] theorem joinBytes_highByte_lowByte (w : Word16) : joinBytes (highByte w) (lowByte w) = w := by
  apply BitVec.eq_of_getLsbD_eq
  intro i hi'
  rw [joinBytes_getLsbD, lowByte, highByte, BitVec.getLsbD_extractLsb', BitVec.getLsbD_extractLsb']
  by_cases h : i < 8
  · simp [h]
  · have h1 : i - 8 < 8 := by omega
    have h2 : 8 + (i - 8) = i := by omega
    simp [h, h1, h2]

end Sys2Proof.Machine
end

