-- ==== Sys2Proof/Laws/PerInstr.lean ====
section
/-! SUPPORT. Facts proved constructor by constructor of Instr: decoding what was encoded gives the instruction back. -/

namespace Sys2Proof

theorem kindOfType_listed_not {t : Word16} (h : listedTypeWord t = false) : kindOfType t = .dflt := by
  simp only [listedTypeWord, Bool.or_eq_false_iff, beq_eq_false_iff_ne] at h
  obtain ⟨⟨⟨h1, h2⟩, h3⟩, h4⟩ := h
  simp only [kindOfType, if_neg h1, if_neg h2, if_neg h3, if_neg h4]

/-- The type-word map, row by row (R63). -/
theorem kindOfType_cases (t : Word16) :
    (t = 0x0001 ∧ kindOfType t = .int) ∨ (t = 0x0002 ∧ kindOfType t = .text) ∨
    (t = 0x0004 ∧ kindOfType t = .enum) ∨ (t = 0x0008 ∧ kindOfType t = .uint) ∨
    (listedTypeWord t = false ∧ kindOfType t = .dflt) := by
  by_cases h1 : t = 0x0001
  · exact .inl ⟨h1, h1 ▸ rfl⟩
  by_cases h2 : t = 0x0002
  · exact .inr (.inl ⟨h2, h2 ▸ rfl⟩)
  by_cases h3 : t = 0x0004
  · exact .inr (.inr (.inl ⟨h3, h3 ▸ rfl⟩))
  by_cases h4 : t = 0x0008
  · exact .inr (.inr (.inr (.inl ⟨h4, h4 ▸ rfl⟩)))
  have h : listedTypeWord t = false := by
    simp only [listedTypeWord, Bool.or_eq_false_iff, beq_eq_false_iff_ne]
    exact ⟨⟨⟨h1, h2⟩, h3⟩, h4⟩
  exact .inr (.inr (.inr (.inr ⟨h, kindOfType_listed_not h⟩)))

/-- The unit header's four bytes decode to the operation of its fields, whatever follows them. -/
theorem decodeUnit_encodeUnit (h l : Byte) (t : Word16) (rest : List Byte) :
    decodeUnit (encodeUnit h l t ++ rest) = .ok (unitInstr h l t, rest) := by
  simp [encodeUnit, decodeUnit, Machine.joinBytes_highByte_lowByte]

theorem decode_unit_encodeUnit (h l : Byte) (t : Word16) : decode (.unit (encodeUnit h l t)) = .ok (unitInstr h l t) := by
  have := decodeUnit_encodeUnit h l t []
  rw [List.append_nil] at this
  simp only [decode, this]

/-- The unit header of the operation it selects is that operation's encoding. -/
theorem encode_unitInstr (h l : Byte) (t : Word16) : encode (unitInstr h l t) = .unit (encodeUnit h l t) := by
  rcases kindOfType_cases t with ⟨rfl, -⟩ | ⟨rfl, -⟩ | ⟨rfl, -⟩ | ⟨rfl, -⟩ | ⟨-, hk⟩
  · rfl
  · rfl
  · rfl
  · rfl
  · rw [unitInstr, hk]; rfl

namespace Laws.RoundTrip

/-- Decoding the encoding of a well-formed instruction gives it back (R62, R63, R77). -/
def Statement (i : Instr) : Prop := i.wellFormed = true → decode (encode i) = .ok i

theorem hdr : Statement .hdr := fun _ => rfl

theorem duInt (h l : Byte) : Statement (.duInt h l) := fun _ => decode_unit_encodeUnit h l 0x0001

theorem duText (h l : Byte) : Statement (.duText h l) := fun _ => decode_unit_encodeUnit h l 0x0002

theorem duEnum (h l : Byte) : Statement (.duEnum h l) := fun _ => decode_unit_encodeUnit h l 0x0004

theorem duUint (h l : Byte) : Statement (.duUint h l) := fun _ => decode_unit_encodeUnit h l 0x0008

theorem duDflt (h l : Byte) (t : Word16) : Statement (.duDflt h l t) := by
  intro hw
  have hk : kindOfType t = .dflt := kindOfType_listed_not (by simpa [Instr.wellFormed] using hw)
  rw [encode, decode_unit_encodeUnit, unitInstr, hk]

theorem trl : Statement .trl := fun _ => rfl

theorem reset : Statement .reset := fun _ => rfl

theorem start : Statement .start := fun _ => rfl

theorem duPop : Statement .duPop := fun _ => rfl

theorem txPop : Statement .txPop := fun _ => rfl

end Laws.RoundTrip

end Sys2Proof
end

