-- ==== Sys2Proof/Laws/State.lean ====
section
/-! SUPPORT. One lemma per field per named update: what each update of Ops.lean leaves in each field of State. Fields an
update fills with a free value (R39) have no lemma. -/

namespace Sys2Proof.Machine

section
variable (s : State)
@[simp] theorem raiseTruncatedHeader_cfg : (raiseTruncatedHeader s).cfg = s.cfg := rfl
@[simp] theorem raiseTruncatedHeader_buf : (raiseTruncatedHeader s).buf = s.buf := rfl
@[simp] theorem raiseTruncatedHeader_nNext : (raiseTruncatedHeader s).nNext = s.nNext := rfl
@[simp] theorem raiseTruncatedHeader_n : (raiseTruncatedHeader s).n = s.n := rfl
@[simp] theorem raiseTruncatedHeader_off : (raiseTruncatedHeader s).off = s.off := rfl
@[simp] theorem raiseTruncatedHeader_phase : (raiseTruncatedHeader s).phase = .error := rfl
@[simp] theorem raiseTruncatedHeader_startFlag : (raiseTruncatedHeader s).startFlag = s.startFlag := rfl
@[simp] theorem raiseTruncatedHeader_length : (raiseTruncatedHeader s).length = s.length := rfl
@[simp] theorem raiseTruncatedHeader_startFlag2 : (raiseTruncatedHeader s).startFlag2 = s.startFlag2 := rfl
@[simp] theorem raiseTruncatedHeader_address : (raiseTruncatedHeader s).address = s.address := rfl
@[simp] theorem raiseTruncatedHeader_functionCode : (raiseTruncatedHeader s).functionCode = s.functionCode := rfl
@[simp] theorem raiseTruncatedHeader_sequence : (raiseTruncatedHeader s).sequence = s.sequence := rfl
@[simp] theorem raiseTruncatedHeader_hdrValid : (raiseTruncatedHeader s).hdrValid = s.hdrValid := rfl
@[simp] theorem raiseTruncatedHeader_crc : (raiseTruncatedHeader s).crc = s.crc := rfl
@[simp] theorem raiseTruncatedHeader_crcValid : (raiseTruncatedHeader s).crcValid = s.crcValid := rfl
@[simp] theorem raiseTruncatedHeader_endFlag : (raiseTruncatedHeader s).endFlag = s.endFlag := rfl
@[simp] theorem raiseTruncatedHeader_endValid : (raiseTruncatedHeader s).endValid = s.endValid := rfl
@[simp] theorem raiseTruncatedHeader_units : (raiseTruncatedHeader s).units = s.units := rfl
@[simp] theorem raiseTruncatedHeader_duq : (raiseTruncatedHeader s).duq = s.duq := rfl
@[simp] theorem raiseTruncatedHeader_txq : (raiseTruncatedHeader s).txq = s.txq := rfl
@[simp] theorem raiseTruncatedHeader_unitCount : (raiseTruncatedHeader s).unitCount = s.unitCount := rfl
@[simp] theorem raiseTruncatedHeader_errCode : (raiseTruncatedHeader s).errCode = .truncatedHeader := rfl
@[simp] theorem raiseTruncatedHeader_stopCause : (raiseTruncatedHeader s).stopCause = s.stopCause := rfl
@[simp] theorem raiseTruncatedHeader_scanOff : (raiseTruncatedHeader s).scanOff = s.scanOff := rfl
@[simp] theorem raiseTruncatedHeader_pending : (raiseTruncatedHeader s).pending = s.pending := rfl
@[simp] theorem raiseTruncatedHeader_hostData : (raiseTruncatedHeader s).hostData = s.hostData := rfl
@[simp] theorem raiseTruncatedHeader_disturbed : (raiseTruncatedHeader s).disturbed = s.disturbed := rfl
@[simp] theorem raiseTruncatedHeader_draws : (raiseTruncatedHeader s).draws = s.draws := rfl
end

section
variable (s : State) (c : StopCause) (o : Nat)
@[simp] theorem stopScan_cfg : (stopScan c o s).cfg = s.cfg := rfl
@[simp] theorem stopScan_buf : (stopScan c o s).buf = s.buf := rfl
@[simp] theorem stopScan_nNext : (stopScan c o s).nNext = s.nNext := rfl
@[simp] theorem stopScan_n : (stopScan c o s).n = s.n := rfl
@[simp] theorem stopScan_off : (stopScan c o s).off = o := rfl
@[simp] theorem stopScan_phase : (stopScan c o s).phase = .trailer := rfl
@[simp] theorem stopScan_startFlag : (stopScan c o s).startFlag = s.startFlag := rfl
@[simp] theorem stopScan_length : (stopScan c o s).length = s.length := rfl
@[simp] theorem stopScan_startFlag2 : (stopScan c o s).startFlag2 = s.startFlag2 := rfl
@[simp] theorem stopScan_address : (stopScan c o s).address = s.address := rfl
@[simp] theorem stopScan_functionCode : (stopScan c o s).functionCode = s.functionCode := rfl
@[simp] theorem stopScan_sequence : (stopScan c o s).sequence = s.sequence := rfl
@[simp] theorem stopScan_hdrValid : (stopScan c o s).hdrValid = s.hdrValid := rfl
@[simp] theorem stopScan_crc : (stopScan c o s).crc = s.crc := rfl
@[simp] theorem stopScan_crcValid : (stopScan c o s).crcValid = s.crcValid := rfl
@[simp] theorem stopScan_endFlag : (stopScan c o s).endFlag = s.endFlag := rfl
@[simp] theorem stopScan_endValid : (stopScan c o s).endValid = s.endValid := rfl
@[simp] theorem stopScan_units : (stopScan c o s).units = s.units := rfl
@[simp] theorem stopScan_duq : (stopScan c o s).duq = s.duq := rfl
@[simp] theorem stopScan_txq : (stopScan c o s).txq = s.txq := rfl
@[simp] theorem stopScan_unitCount : (stopScan c o s).unitCount = s.unitCount := rfl
@[simp] theorem stopScan_errCode : (stopScan c o s).errCode = s.errCode := rfl
@[simp] theorem stopScan_stopCause : (stopScan c o s).stopCause = c := rfl
@[simp] theorem stopScan_scanOff : (stopScan c o s).scanOff = o := rfl
@[simp] theorem stopScan_pending : (stopScan c o s).pending = s.pending := rfl
@[simp] theorem stopScan_hostData : (stopScan c o s).hostData = s.hostData := rfl
@[simp] theorem stopScan_disturbed : (stopScan c o s).disturbed = s.disturbed := rfl
@[simp] theorem stopScan_draws : (stopScan c o s).draws = s.draws := rfl
end

section
variable (s : State) (r : Record) (o : Nat)
@[simp] theorem appendRecord_cfg : (appendRecord r o s).cfg = s.cfg := rfl
@[simp] theorem appendRecord_buf : (appendRecord r o s).buf = s.buf := rfl
@[simp] theorem appendRecord_nNext : (appendRecord r o s).nNext = s.nNext := rfl
@[simp] theorem appendRecord_n : (appendRecord r o s).n = s.n := rfl
@[simp] theorem appendRecord_off : (appendRecord r o s).off = o := rfl
@[simp] theorem appendRecord_phase : (appendRecord r o s).phase = s.phase := rfl
@[simp] theorem appendRecord_startFlag : (appendRecord r o s).startFlag = s.startFlag := rfl
@[simp] theorem appendRecord_length : (appendRecord r o s).length = s.length := rfl
@[simp] theorem appendRecord_startFlag2 : (appendRecord r o s).startFlag2 = s.startFlag2 := rfl
@[simp] theorem appendRecord_address : (appendRecord r o s).address = s.address := rfl
@[simp] theorem appendRecord_functionCode : (appendRecord r o s).functionCode = s.functionCode := rfl
@[simp] theorem appendRecord_sequence : (appendRecord r o s).sequence = s.sequence := rfl
@[simp] theorem appendRecord_hdrValid : (appendRecord r o s).hdrValid = s.hdrValid := rfl
@[simp] theorem appendRecord_crc : (appendRecord r o s).crc = s.crc := rfl
@[simp] theorem appendRecord_crcValid : (appendRecord r o s).crcValid = s.crcValid := rfl
@[simp] theorem appendRecord_endFlag : (appendRecord r o s).endFlag = s.endFlag := rfl
@[simp] theorem appendRecord_endValid : (appendRecord r o s).endValid = s.endValid := rfl
@[simp] theorem appendRecord_units : (appendRecord r o s).units = s.units ++ [r] := rfl
@[simp] theorem appendRecord_duq : (appendRecord r o s).duq = s.duq ++ [r] := rfl
@[simp] theorem appendRecord_txq : (appendRecord r o s).txq = s.txq ++ r.chars := rfl
@[simp] theorem appendRecord_unitCount : (appendRecord r o s).unitCount = s.unitCount + 1 := rfl
@[simp] theorem appendRecord_errCode : (appendRecord r o s).errCode = s.errCode := rfl
@[simp] theorem appendRecord_stopCause : (appendRecord r o s).stopCause = s.stopCause := rfl
@[simp] theorem appendRecord_scanOff : (appendRecord r o s).scanOff = s.scanOff := rfl
@[simp] theorem appendRecord_pending : (appendRecord r o s).pending = s.pending := rfl
@[simp] theorem appendRecord_hostData : (appendRecord r o s).hostData = s.hostData := rfl
@[simp] theorem appendRecord_disturbed : (appendRecord r o s).disturbed = s.disturbed := rfl
@[simp] theorem appendRecord_draws : (appendRecord r o s).draws = s.draws := rfl
end

section
variable (s : State)
@[simp] theorem loadHeader_cfg : (loadHeader s).cfg = s.cfg := rfl
@[simp] theorem loadHeader_buf : (loadHeader s).buf = s.buf := rfl
@[simp] theorem loadHeader_nNext : (loadHeader s).nNext = s.nNext := rfl
@[simp] theorem loadHeader_n : (loadHeader s).n = s.n := rfl
@[simp] theorem loadHeader_off : (loadHeader s).off = 15 := rfl
@[simp] theorem loadHeader_phase : (loadHeader s).phase = .scan := rfl
@[simp] theorem loadHeader_startFlag : (loadHeader s).startFlag = Memory.read s.buf 0 := rfl
@[simp] theorem loadHeader_length : (loadHeader s).length = Memory.readBE16 s.buf 1 := rfl
@[simp] theorem loadHeader_startFlag2 : (loadHeader s).startFlag2 = Memory.read s.buf 3 := rfl
@[simp] theorem loadHeader_functionCode : (loadHeader s).functionCode = Memory.read s.buf 12 := rfl
@[simp] theorem loadHeader_hdrValid : (loadHeader s).hdrValid = true := rfl
@[simp] theorem loadHeader_crc : (loadHeader s).crc = s.crc := rfl
@[simp] theorem loadHeader_crcValid : (loadHeader s).crcValid = s.crcValid := rfl
@[simp] theorem loadHeader_endFlag : (loadHeader s).endFlag = s.endFlag := rfl
@[simp] theorem loadHeader_endValid : (loadHeader s).endValid = s.endValid := rfl
@[simp] theorem loadHeader_units : (loadHeader s).units = s.units := rfl
@[simp] theorem loadHeader_duq : (loadHeader s).duq = s.duq := rfl
@[simp] theorem loadHeader_txq : (loadHeader s).txq = s.txq := rfl
@[simp] theorem loadHeader_unitCount : (loadHeader s).unitCount = s.unitCount := rfl
@[simp] theorem loadHeader_errCode : (loadHeader s).errCode = s.errCode := rfl
@[simp] theorem loadHeader_stopCause : (loadHeader s).stopCause = s.stopCause := rfl
@[simp] theorem loadHeader_scanOff : (loadHeader s).scanOff = s.scanOff := rfl
@[simp] theorem loadHeader_pending : (loadHeader s).pending = s.pending := rfl
@[simp] theorem loadHeader_hostData : (loadHeader s).hostData = s.hostData := rfl
@[simp] theorem loadHeader_disturbed : (loadHeader s).disturbed = s.disturbed := rfl
@[simp] theorem loadHeader_draws : (loadHeader s).draws = s.draws := rfl
end

section
variable (s : State)
@[simp] theorem clearResults_cfg : (clearResults s).cfg = s.cfg := rfl
@[simp] theorem clearResults_buf : (clearResults s).buf = s.buf := rfl
@[simp] theorem clearResults_nNext : (clearResults s).nNext = s.nNext := rfl
@[simp] theorem clearResults_n : (clearResults s).n = s.n := rfl
@[simp] theorem clearResults_off : (clearResults s).off = 0 := rfl
@[simp] theorem clearResults_phase : (clearResults s).phase = s.phase := rfl
@[simp] theorem clearResults_startFlag : (clearResults s).startFlag = s.startFlag := rfl
@[simp] theorem clearResults_length : (clearResults s).length = s.length := rfl
@[simp] theorem clearResults_startFlag2 : (clearResults s).startFlag2 = s.startFlag2 := rfl
@[simp] theorem clearResults_address : (clearResults s).address = s.address := rfl
@[simp] theorem clearResults_functionCode : (clearResults s).functionCode = s.functionCode := rfl
@[simp] theorem clearResults_sequence : (clearResults s).sequence = s.sequence := rfl
@[simp] theorem clearResults_hdrValid : (clearResults s).hdrValid = false := rfl
@[simp] theorem clearResults_crc : (clearResults s).crc = s.crc := rfl
@[simp] theorem clearResults_crcValid : (clearResults s).crcValid = false := rfl
@[simp] theorem clearResults_endFlag : (clearResults s).endFlag = s.endFlag := rfl
@[simp] theorem clearResults_endValid : (clearResults s).endValid = false := rfl
@[simp] theorem clearResults_units : (clearResults s).units = [] := rfl
@[simp] theorem clearResults_duq : (clearResults s).duq = [] := rfl
@[simp] theorem clearResults_txq : (clearResults s).txq = [] := rfl
@[simp] theorem clearResults_unitCount : (clearResults s).unitCount = 0 := rfl
@[simp] theorem clearResults_errCode : (clearResults s).errCode = .none := rfl
@[simp] theorem clearResults_stopCause : (clearResults s).stopCause = .none := rfl
@[simp] theorem clearResults_scanOff : (clearResults s).scanOff = s.scanOff := rfl
@[simp] theorem clearResults_pending : (clearResults s).pending = s.pending := rfl
@[simp] theorem clearResults_hostData : (clearResults s).hostData = s.hostData := rfl
@[simp] theorem clearResults_disturbed : (clearResults s).disturbed = false := rfl
@[simp] theorem clearResults_draws : (clearResults s).draws = s.draws := rfl
end

section
variable (s : State)
@[simp] theorem startDecode_cfg : (startDecode s).cfg = s.cfg := rfl
@[simp] theorem startDecode_buf : (startDecode s).buf = s.buf := rfl
@[simp] theorem startDecode_nNext : (startDecode s).nNext = s.nNext := rfl
@[simp] theorem startDecode_n : (startDecode s).n = s.nNext := rfl
@[simp] theorem startDecode_off : (startDecode s).off = 0 := rfl
@[simp] theorem startDecode_phase : (startDecode s).phase = .header := rfl
@[simp] theorem startDecode_startFlag : (startDecode s).startFlag = s.startFlag := rfl
@[simp] theorem startDecode_length : (startDecode s).length = s.length := rfl
@[simp] theorem startDecode_startFlag2 : (startDecode s).startFlag2 = s.startFlag2 := rfl
@[simp] theorem startDecode_address : (startDecode s).address = s.address := rfl
@[simp] theorem startDecode_functionCode : (startDecode s).functionCode = s.functionCode := rfl
@[simp] theorem startDecode_sequence : (startDecode s).sequence = s.sequence := rfl
@[simp] theorem startDecode_hdrValid : (startDecode s).hdrValid = false := rfl
@[simp] theorem startDecode_crc : (startDecode s).crc = s.crc := rfl
@[simp] theorem startDecode_crcValid : (startDecode s).crcValid = false := rfl
@[simp] theorem startDecode_endFlag : (startDecode s).endFlag = s.endFlag := rfl
@[simp] theorem startDecode_endValid : (startDecode s).endValid = false := rfl
@[simp] theorem startDecode_units : (startDecode s).units = [] := rfl
@[simp] theorem startDecode_duq : (startDecode s).duq = [] := rfl
@[simp] theorem startDecode_txq : (startDecode s).txq = [] := rfl
@[simp] theorem startDecode_unitCount : (startDecode s).unitCount = 0 := rfl
@[simp] theorem startDecode_errCode : (startDecode s).errCode = .none := rfl
@[simp] theorem startDecode_stopCause : (startDecode s).stopCause = .none := rfl
@[simp] theorem startDecode_scanOff : (startDecode s).scanOff = s.scanOff := rfl
@[simp] theorem startDecode_pending : (startDecode s).pending = s.pending := rfl
@[simp] theorem startDecode_hostData : (startDecode s).hostData = s.hostData := rfl
@[simp] theorem startDecode_disturbed : (startDecode s).disturbed = false := rfl
@[simp] theorem startDecode_draws : (startDecode s).draws = s.draws := rfl
end

section
variable (s : State)
@[simp] theorem forgetRegisters_cfg : (forgetRegisters s).cfg = s.cfg := rfl
@[simp] theorem forgetRegisters_buf : (forgetRegisters s).buf = s.buf := rfl
@[simp] theorem forgetRegisters_nNext : (forgetRegisters s).nNext = s.nNext := rfl
@[simp] theorem forgetRegisters_n : (forgetRegisters s).n = s.n := rfl
@[simp] theorem forgetRegisters_off : (forgetRegisters s).off = s.off := rfl
@[simp] theorem forgetRegisters_phase : (forgetRegisters s).phase = s.phase := rfl
@[simp] theorem forgetRegisters_hdrValid : (forgetRegisters s).hdrValid = s.hdrValid := rfl
@[simp] theorem forgetRegisters_crcValid : (forgetRegisters s).crcValid = s.crcValid := rfl
@[simp] theorem forgetRegisters_endValid : (forgetRegisters s).endValid = s.endValid := rfl
@[simp] theorem forgetRegisters_units : (forgetRegisters s).units = s.units := rfl
@[simp] theorem forgetRegisters_duq : (forgetRegisters s).duq = s.duq := rfl
@[simp] theorem forgetRegisters_txq : (forgetRegisters s).txq = s.txq := rfl
@[simp] theorem forgetRegisters_unitCount : (forgetRegisters s).unitCount = s.unitCount := rfl
@[simp] theorem forgetRegisters_errCode : (forgetRegisters s).errCode = s.errCode := rfl
@[simp] theorem forgetRegisters_stopCause : (forgetRegisters s).stopCause = s.stopCause := rfl
@[simp] theorem forgetRegisters_pending : (forgetRegisters s).pending = s.pending := rfl
@[simp] theorem forgetRegisters_hostData : (forgetRegisters s).hostData = s.hostData := rfl
@[simp] theorem forgetRegisters_disturbed : (forgetRegisters s).disturbed = s.disturbed := rfl
@[simp] theorem forgetRegisters_draws : (forgetRegisters s).draws = s.draws + 17 := rfl
end

section
variable (s : State)
@[simp] theorem resetBlock_cfg : (resetBlock s).cfg = s.cfg := rfl
@[simp] theorem resetBlock_buf : (resetBlock s).buf = s.buf := rfl
@[simp] theorem resetBlock_nNext : (resetBlock s).nNext = 0 := rfl
@[simp] theorem resetBlock_n : (resetBlock s).n = 0 := rfl
@[simp] theorem resetBlock_off : (resetBlock s).off = 0 := rfl
@[simp] theorem resetBlock_phase : (resetBlock s).phase = .idle := rfl
@[simp] theorem resetBlock_hdrValid : (resetBlock s).hdrValid = false := rfl
@[simp] theorem resetBlock_crcValid : (resetBlock s).crcValid = false := rfl
@[simp] theorem resetBlock_endValid : (resetBlock s).endValid = false := rfl
@[simp] theorem resetBlock_units : (resetBlock s).units = [] := rfl
@[simp] theorem resetBlock_duq : (resetBlock s).duq = [] := rfl
@[simp] theorem resetBlock_txq : (resetBlock s).txq = [] := rfl
@[simp] theorem resetBlock_unitCount : (resetBlock s).unitCount = 0 := rfl
@[simp] theorem resetBlock_errCode : (resetBlock s).errCode = .none := rfl
@[simp] theorem resetBlock_stopCause : (resetBlock s).stopCause = .none := rfl
@[simp] theorem resetBlock_pending : (resetBlock s).pending = s.pending := rfl
@[simp] theorem resetBlock_hostData : (resetBlock s).hostData = s.hostData := rfl
@[simp] theorem resetBlock_disturbed : (resetBlock s).disturbed = false := rfl
@[simp] theorem resetBlock_draws : (resetBlock s).draws = s.draws + 17 := rfl
end

section
variable (s : State) (f : State) (p : Phase) (o : Nat)
@[simp] theorem loseResults_cfg : (loseResults f p o s).cfg = s.cfg := rfl
@[simp] theorem loseResults_buf : (loseResults f p o s).buf = s.buf := rfl
@[simp] theorem loseResults_nNext : (loseResults f p o s).nNext = s.nNext := rfl
@[simp] theorem loseResults_n : (loseResults f p o s).n = s.n := rfl
@[simp] theorem loseResults_off : (loseResults f p o s).off = o := rfl
@[simp] theorem loseResults_phase : (loseResults f p o s).phase = p := rfl
@[simp] theorem loseResults_startFlag : (loseResults f p o s).startFlag = f.startFlag := rfl
@[simp] theorem loseResults_length : (loseResults f p o s).length = f.length := rfl
@[simp] theorem loseResults_startFlag2 : (loseResults f p o s).startFlag2 = f.startFlag2 := rfl
@[simp] theorem loseResults_address : (loseResults f p o s).address = f.address := rfl
@[simp] theorem loseResults_functionCode : (loseResults f p o s).functionCode = f.functionCode := rfl
@[simp] theorem loseResults_sequence : (loseResults f p o s).sequence = f.sequence := rfl
@[simp] theorem loseResults_hdrValid : (loseResults f p o s).hdrValid = (p == .scan || p == .trailer || p == .done) := rfl
@[simp] theorem loseResults_crc : (loseResults f p o s).crc = f.crc := rfl
@[simp] theorem loseResults_crcValid : (loseResults f p o s).crcValid = (p == .done && f.crcValid) := rfl
@[simp] theorem loseResults_endFlag : (loseResults f p o s).endFlag = f.endFlag := rfl
@[simp] theorem loseResults_endValid : (loseResults f p o s).endValid = (p == .done && f.endValid) := rfl
@[simp] theorem loseResults_units : (loseResults f p o s).units = f.units.map (fitRecord s) := rfl
@[simp] theorem loseResults_duq : (loseResults f p o s).duq = f.duq.map (fitRecord s) := rfl
@[simp] theorem loseResults_txq : (loseResults f p o s).txq = f.txq := rfl
@[simp] theorem loseResults_unitCount : (loseResults f p o s).unitCount = f.unitCount % 2 ^ s.cfg.offw := rfl
@[simp] theorem loseResults_errCode : (loseResults f p o s).errCode = (if p = .error then .truncatedHeader else .none) := rfl
@[simp] theorem loseResults_stopCause : (loseResults f p o s).stopCause = causeIn p f.stopCause := rfl
@[simp] theorem loseResults_scanOff : (loseResults f p o s).scanOff = f.scanOff % 2 ^ s.cfg.offw := rfl
@[simp] theorem loseResults_pending : (loseResults f p o s).pending = s.pending := rfl
@[simp] theorem loseResults_hostData : (loseResults f p o s).hostData = s.hostData := rfl
@[simp] theorem loseResults_disturbed : (loseResults f p o s).disturbed = true := rfl
@[simp] theorem loseResults_draws : (loseResults f p o s).draws = s.draws + 1 := rfl
end

section
variable (s : State)
@[simp] theorem popRecord_cfg : (popRecord s).cfg = s.cfg := rfl
@[simp] theorem popRecord_buf : (popRecord s).buf = s.buf := rfl
@[simp] theorem popRecord_nNext : (popRecord s).nNext = s.nNext := rfl
@[simp] theorem popRecord_n : (popRecord s).n = s.n := rfl
@[simp] theorem popRecord_off : (popRecord s).off = s.off := rfl
@[simp] theorem popRecord_phase : (popRecord s).phase = s.phase := rfl
@[simp] theorem popRecord_startFlag : (popRecord s).startFlag = s.startFlag := rfl
@[simp] theorem popRecord_length : (popRecord s).length = s.length := rfl
@[simp] theorem popRecord_startFlag2 : (popRecord s).startFlag2 = s.startFlag2 := rfl
@[simp] theorem popRecord_address : (popRecord s).address = s.address := rfl
@[simp] theorem popRecord_functionCode : (popRecord s).functionCode = s.functionCode := rfl
@[simp] theorem popRecord_sequence : (popRecord s).sequence = s.sequence := rfl
@[simp] theorem popRecord_hdrValid : (popRecord s).hdrValid = s.hdrValid := rfl
@[simp] theorem popRecord_crc : (popRecord s).crc = s.crc := rfl
@[simp] theorem popRecord_crcValid : (popRecord s).crcValid = s.crcValid := rfl
@[simp] theorem popRecord_endFlag : (popRecord s).endFlag = s.endFlag := rfl
@[simp] theorem popRecord_endValid : (popRecord s).endValid = s.endValid := rfl
@[simp] theorem popRecord_units : (popRecord s).units = s.units := rfl
@[simp] theorem popRecord_duq : (popRecord s).duq = s.duq.tail := rfl
@[simp] theorem popRecord_txq : (popRecord s).txq = s.txq := rfl
@[simp] theorem popRecord_unitCount : (popRecord s).unitCount = s.unitCount := rfl
@[simp] theorem popRecord_errCode : (popRecord s).errCode = s.errCode := rfl
@[simp] theorem popRecord_stopCause : (popRecord s).stopCause = s.stopCause := rfl
@[simp] theorem popRecord_scanOff : (popRecord s).scanOff = s.scanOff := rfl
@[simp] theorem popRecord_pending : (popRecord s).pending = s.pending := rfl
@[simp] theorem popRecord_hostData : (popRecord s).hostData = s.hostData := rfl
@[simp] theorem popRecord_disturbed : (popRecord s).disturbed = s.disturbed := rfl
@[simp] theorem popRecord_draws : (popRecord s).draws = s.draws := rfl
end

section
variable (s : State)
@[simp] theorem popChar_cfg : (popChar s).cfg = s.cfg := rfl
@[simp] theorem popChar_buf : (popChar s).buf = s.buf := rfl
@[simp] theorem popChar_nNext : (popChar s).nNext = s.nNext := rfl
@[simp] theorem popChar_n : (popChar s).n = s.n := rfl
@[simp] theorem popChar_off : (popChar s).off = s.off := rfl
@[simp] theorem popChar_phase : (popChar s).phase = s.phase := rfl
@[simp] theorem popChar_startFlag : (popChar s).startFlag = s.startFlag := rfl
@[simp] theorem popChar_length : (popChar s).length = s.length := rfl
@[simp] theorem popChar_startFlag2 : (popChar s).startFlag2 = s.startFlag2 := rfl
@[simp] theorem popChar_address : (popChar s).address = s.address := rfl
@[simp] theorem popChar_functionCode : (popChar s).functionCode = s.functionCode := rfl
@[simp] theorem popChar_sequence : (popChar s).sequence = s.sequence := rfl
@[simp] theorem popChar_hdrValid : (popChar s).hdrValid = s.hdrValid := rfl
@[simp] theorem popChar_crc : (popChar s).crc = s.crc := rfl
@[simp] theorem popChar_crcValid : (popChar s).crcValid = s.crcValid := rfl
@[simp] theorem popChar_endFlag : (popChar s).endFlag = s.endFlag := rfl
@[simp] theorem popChar_endValid : (popChar s).endValid = s.endValid := rfl
@[simp] theorem popChar_units : (popChar s).units = s.units := rfl
@[simp] theorem popChar_duq : (popChar s).duq = s.duq := rfl
@[simp] theorem popChar_txq : (popChar s).txq = s.txq.tail := rfl
@[simp] theorem popChar_unitCount : (popChar s).unitCount = s.unitCount := rfl
@[simp] theorem popChar_errCode : (popChar s).errCode = s.errCode := rfl
@[simp] theorem popChar_stopCause : (popChar s).stopCause = s.stopCause := rfl
@[simp] theorem popChar_scanOff : (popChar s).scanOff = s.scanOff := rfl
@[simp] theorem popChar_pending : (popChar s).pending = s.pending := rfl
@[simp] theorem popChar_hostData : (popChar s).hostData = s.hostData := rfl
@[simp] theorem popChar_disturbed : (popChar s).disturbed = s.disturbed := rfl
@[simp] theorem popChar_draws : (popChar s).draws = s.draws := rfl
end

section
variable (s : State) (v : Word32)
@[simp] theorem setBufLen_cfg : (setBufLen v s).cfg = s.cfg := rfl
@[simp] theorem setBufLen_buf : (setBufLen v s).buf = s.buf := rfl
@[simp] theorem setBufLen_nNext : (setBufLen v s).nNext = v.toNat % 2 ^ s.cfg.offw := rfl
@[simp] theorem setBufLen_n : (setBufLen v s).n = s.n := rfl
@[simp] theorem setBufLen_off : (setBufLen v s).off = s.off := rfl
@[simp] theorem setBufLen_phase : (setBufLen v s).phase = s.phase := rfl
@[simp] theorem setBufLen_startFlag : (setBufLen v s).startFlag = s.startFlag := rfl
@[simp] theorem setBufLen_length : (setBufLen v s).length = s.length := rfl
@[simp] theorem setBufLen_startFlag2 : (setBufLen v s).startFlag2 = s.startFlag2 := rfl
@[simp] theorem setBufLen_address : (setBufLen v s).address = s.address := rfl
@[simp] theorem setBufLen_functionCode : (setBufLen v s).functionCode = s.functionCode := rfl
@[simp] theorem setBufLen_sequence : (setBufLen v s).sequence = s.sequence := rfl
@[simp] theorem setBufLen_hdrValid : (setBufLen v s).hdrValid = s.hdrValid := rfl
@[simp] theorem setBufLen_crc : (setBufLen v s).crc = s.crc := rfl
@[simp] theorem setBufLen_crcValid : (setBufLen v s).crcValid = s.crcValid := rfl
@[simp] theorem setBufLen_endFlag : (setBufLen v s).endFlag = s.endFlag := rfl
@[simp] theorem setBufLen_endValid : (setBufLen v s).endValid = s.endValid := rfl
@[simp] theorem setBufLen_units : (setBufLen v s).units = s.units := rfl
@[simp] theorem setBufLen_duq : (setBufLen v s).duq = s.duq := rfl
@[simp] theorem setBufLen_txq : (setBufLen v s).txq = s.txq := rfl
@[simp] theorem setBufLen_unitCount : (setBufLen v s).unitCount = s.unitCount := rfl
@[simp] theorem setBufLen_errCode : (setBufLen v s).errCode = s.errCode := rfl
@[simp] theorem setBufLen_stopCause : (setBufLen v s).stopCause = s.stopCause := rfl
@[simp] theorem setBufLen_scanOff : (setBufLen v s).scanOff = s.scanOff := rfl
@[simp] theorem setBufLen_pending : (setBufLen v s).pending = s.pending := rfl
@[simp] theorem setBufLen_hostData : (setBufLen v s).hostData = s.hostData := rfl
@[simp] theorem setBufLen_disturbed : (setBufLen v s).disturbed = s.disturbed := rfl
@[simp] theorem setBufLen_draws : (setBufLen v s).draws = s.draws := rfl
end

section
variable (s : State)
@[simp] theorem loadCrc_cfg : (loadCrc s).cfg = s.cfg := by unfold loadCrc; split <;> rfl
@[simp] theorem loadCrc_buf : (loadCrc s).buf = s.buf := by unfold loadCrc; split <;> rfl
@[simp] theorem loadCrc_nNext : (loadCrc s).nNext = s.nNext := by unfold loadCrc; split <;> rfl
@[simp] theorem loadCrc_n : (loadCrc s).n = s.n := by unfold loadCrc; split <;> rfl
@[simp] theorem loadCrc_phase : (loadCrc s).phase = s.phase := by unfold loadCrc; split <;> rfl
@[simp] theorem loadCrc_startFlag : (loadCrc s).startFlag = s.startFlag := by unfold loadCrc; split <;> rfl
@[simp] theorem loadCrc_length : (loadCrc s).length = s.length := by unfold loadCrc; split <;> rfl
@[simp] theorem loadCrc_startFlag2 : (loadCrc s).startFlag2 = s.startFlag2 := by unfold loadCrc; split <;> rfl
@[simp] theorem loadCrc_address : (loadCrc s).address = s.address := by unfold loadCrc; split <;> rfl
@[simp] theorem loadCrc_functionCode : (loadCrc s).functionCode = s.functionCode := by unfold loadCrc; split <;> rfl
@[simp] theorem loadCrc_sequence : (loadCrc s).sequence = s.sequence := by unfold loadCrc; split <;> rfl
@[simp] theorem loadCrc_hdrValid : (loadCrc s).hdrValid = s.hdrValid := by unfold loadCrc; split <;> rfl
@[simp] theorem loadCrc_endFlag : (loadCrc s).endFlag = s.endFlag := by unfold loadCrc; split <;> rfl
@[simp] theorem loadCrc_endValid : (loadCrc s).endValid = s.endValid := by unfold loadCrc; split <;> rfl
@[simp] theorem loadCrc_units : (loadCrc s).units = s.units := by unfold loadCrc; split <;> rfl
@[simp] theorem loadCrc_duq : (loadCrc s).duq = s.duq := by unfold loadCrc; split <;> rfl
@[simp] theorem loadCrc_txq : (loadCrc s).txq = s.txq := by unfold loadCrc; split <;> rfl
@[simp] theorem loadCrc_unitCount : (loadCrc s).unitCount = s.unitCount := by unfold loadCrc; split <;> rfl
@[simp] theorem loadCrc_errCode : (loadCrc s).errCode = s.errCode := by unfold loadCrc; split <;> rfl
@[simp] theorem loadCrc_stopCause : (loadCrc s).stopCause = s.stopCause := by unfold loadCrc; split <;> rfl
@[simp] theorem loadCrc_scanOff : (loadCrc s).scanOff = s.scanOff := by unfold loadCrc; split <;> rfl
@[simp] theorem loadCrc_pending : (loadCrc s).pending = s.pending := by unfold loadCrc; split <;> rfl
@[simp] theorem loadCrc_hostData : (loadCrc s).hostData = s.hostData := by unfold loadCrc; split <;> rfl
@[simp] theorem loadCrc_disturbed : (loadCrc s).disturbed = s.disturbed := by unfold loadCrc; split <;> rfl
@[simp] theorem loadCrc_draws : (loadCrc s).draws = s.draws := by unfold loadCrc; split <;> rfl
end

section
variable (s : State)
@[simp] theorem loadEndFlag_cfg : (loadEndFlag s).cfg = s.cfg := by unfold loadEndFlag; split <;> rfl
@[simp] theorem loadEndFlag_buf : (loadEndFlag s).buf = s.buf := by unfold loadEndFlag; split <;> rfl
@[simp] theorem loadEndFlag_nNext : (loadEndFlag s).nNext = s.nNext := by unfold loadEndFlag; split <;> rfl
@[simp] theorem loadEndFlag_n : (loadEndFlag s).n = s.n := by unfold loadEndFlag; split <;> rfl
@[simp] theorem loadEndFlag_phase : (loadEndFlag s).phase = s.phase := by unfold loadEndFlag; split <;> rfl
@[simp] theorem loadEndFlag_startFlag : (loadEndFlag s).startFlag = s.startFlag := by unfold loadEndFlag; split <;> rfl
@[simp] theorem loadEndFlag_length : (loadEndFlag s).length = s.length := by unfold loadEndFlag; split <;> rfl
@[simp] theorem loadEndFlag_startFlag2 : (loadEndFlag s).startFlag2 = s.startFlag2 := by unfold loadEndFlag; split <;> rfl
@[simp] theorem loadEndFlag_address : (loadEndFlag s).address = s.address := by unfold loadEndFlag; split <;> rfl
@[simp] theorem loadEndFlag_functionCode : (loadEndFlag s).functionCode = s.functionCode := by unfold loadEndFlag; split <;> rfl
@[simp] theorem loadEndFlag_sequence : (loadEndFlag s).sequence = s.sequence := by unfold loadEndFlag; split <;> rfl
@[simp] theorem loadEndFlag_hdrValid : (loadEndFlag s).hdrValid = s.hdrValid := by unfold loadEndFlag; split <;> rfl
@[simp] theorem loadEndFlag_crc : (loadEndFlag s).crc = s.crc := by unfold loadEndFlag; split <;> rfl
@[simp] theorem loadEndFlag_crcValid : (loadEndFlag s).crcValid = s.crcValid := by unfold loadEndFlag; split <;> rfl
@[simp] theorem loadEndFlag_units : (loadEndFlag s).units = s.units := by unfold loadEndFlag; split <;> rfl
@[simp] theorem loadEndFlag_duq : (loadEndFlag s).duq = s.duq := by unfold loadEndFlag; split <;> rfl
@[simp] theorem loadEndFlag_txq : (loadEndFlag s).txq = s.txq := by unfold loadEndFlag; split <;> rfl
@[simp] theorem loadEndFlag_unitCount : (loadEndFlag s).unitCount = s.unitCount := by unfold loadEndFlag; split <;> rfl
@[simp] theorem loadEndFlag_errCode : (loadEndFlag s).errCode = s.errCode := by unfold loadEndFlag; split <;> rfl
@[simp] theorem loadEndFlag_stopCause : (loadEndFlag s).stopCause = s.stopCause := by unfold loadEndFlag; split <;> rfl
@[simp] theorem loadEndFlag_scanOff : (loadEndFlag s).scanOff = s.scanOff := by unfold loadEndFlag; split <;> rfl
@[simp] theorem loadEndFlag_pending : (loadEndFlag s).pending = s.pending := by unfold loadEndFlag; split <;> rfl
@[simp] theorem loadEndFlag_hostData : (loadEndFlag s).hostData = s.hostData := by unfold loadEndFlag; split <;> rfl
@[simp] theorem loadEndFlag_disturbed : (loadEndFlag s).disturbed = s.disturbed := by unfold loadEndFlag; split <;> rfl
@[simp] theorem loadEndFlag_draws : (loadEndFlag s).draws = s.draws := by unfold loadEndFlag; split <;> rfl
end

end Sys2Proof.Machine
end

