-- ==== Sys2Proof/Laws/Ops.lean ====
section
/-! SUPPORT. What each shared operation can do, said once: the readers, a data-unit operation, the trailer, the decoder's
and the host's steps. Later proofs cite these and do not unfold the operations. -/

namespace Sys2Proof.Machine

/-- A decoder operation runs in its phase only, to its own effect unless the decode is disturbed. -/
theorem inPhase_eq_next {p : Phase} {s t u : State} :
    inPhase p s t = .next u ↔
      s.phase = p ∧ (s.disturbed = false ∧ u = t ∨ s.disturbed = true ∧ u = disturbedOp s) := by
  unfold inPhase
  by_cases hp : s.phase = p
  · cases hd : s.disturbed <;> simp [hp, eq_comm]
  · simp [hp]

theorem inPhase_of_phase {p : Phase} {s : State} (t : State) (h : s.phase = p) (hd : s.disturbed = false) :
    inPhase p s t = .next t := by
  rw [inPhase, if_pos h, hd]; rfl

theorem inPhase_of_disturbed {p : Phase} {s : State} (t : State) (h : s.phase = p) (hd : s.disturbed = true) :
    inPhase p s t = .next (disturbedOp s) := by
  rw [inPhase, if_pos h, hd]; rfl

theorem inPhase_of_ne {p : Phase} {s : State} (t : State) (h : s.phase ≠ p) :
    inPhase p s t = .refused .notEnabled := if_neg h

/-- A disturbed decode has a stop cause exactly once its scan has stopped (R33). -/
theorem causeIn_ne_none (p : Phase) (c : StopCause) : causeIn p c ≠ .none ↔ p = .trailer ∨ p = .done := by
  unfold causeIn
  split
  · rename_i h
    refine ⟨fun _ => h, fun _ => ?_⟩
    split
    · exact nofun
    · assumption
  · exact ⟨fun h => absurd rfl h, fun h => absurd h ‹_›⟩

/-- Every record of a disturbed decode has an offset of OFFW bits (R31). -/
theorem unitOff_lt_of_mem_fitRecord {s : State} {rs : List Record} {r : Record} (h : r ∈ rs.map (fitRecord s)) :
    r.unitOff < 2 ^ s.cfg.offw := by
  obtain ⟨x, -, rfl⟩ := List.mem_map.1 h
  exact Nat.mod_lt _ (Nat.two_pow_pos _)

/-- All one operation of a disturbed decode can do while BUSY (R193): every result takes a free value, OFF grows, by at least
1 where the scan goes on, and a next phase is reached. -/
theorem disturbedOp_cases (s : State) (hb : s.busy = true) :
    ∃ f p off, disturbedOp s = loseResults f p off s ∧ s.off ≤ off ∧ (s.off ≤ s.n → off ≤ s.n) ∧
      (s.phase = .header ∧ (p = .scan ∨ p = .error) ∨
        s.phase = .scan ∧ (p = .scan ∧ s.off < off ∨ p = .trailer ∨ p = .error) ∨
        s.phase = .trailer ∧ (p = .done ∨ p = .error)) := by
  have on : ∀ k : Nat, s.off ≤ s.n → s.off + k % (s.n - s.off + 1) ≤ s.n := fun k h => by
    have : k % (s.n - s.off + 1) < s.n - s.off + 1 := Nat.mod_lt k (Nat.succ_pos _)
    omega
  unfold disturbedOp
  cases hp : s.phase with
  | idle => simp [State.busy, Phase.busy, hp] at hb
  | done => simp [State.busy, Phase.busy, hp] at hb
  | error => simp [State.busy, Phase.busy, hp] at hb
  | header =>
    refine ⟨_, _, _, rfl, Nat.le_add_right _ _, on _, .inl ⟨rfl, ?_⟩⟩
    split
    · exact .inr rfl
    · exact .inl rfl
  | trailer =>
    refine ⟨_, _, _, rfl, Nat.le_add_right _ _, on _, .inr (.inr ⟨rfl, ?_⟩)⟩
    split
    · exact .inr rfl
    · exact .inl rfl
  | scan =>
    dsimp only
    split
    · exact ⟨_, _, _, rfl, Nat.le_add_right _ _, on _, .inr (.inl ⟨rfl, .inr (.inr rfl)⟩)⟩
    · split
      · rename_i h
        refine ⟨_, _, _, rfl, by omega, fun _ => ?_, .inr (.inl ⟨rfl, .inl ⟨rfl, by omega⟩⟩)⟩
        have := Nat.mod_lt (Config.freeState s.draws).off (Nat.sub_pos_of_lt h.2); omega
      · exact ⟨_, _, _, rfl, Nat.le_add_right _ _, on _, .inr (.inl ⟨rfl, .inr (.inl rfl)⟩)⟩

/-- READ_FIXED (R111). -/
theorem readFixed_cases (tag : Word32 → Value) (s : State) (off : Nat) :
    (remaining s off < 4 ∧ readFixed tag s off = .stop .fixedValue off) ∨
    (4 ≤ remaining s off ∧
      readFixed tag s off = .got { value := tag (Memory.readBE32 s.buf off), declLen := 4 } (off + 4)) := by
  unfold readFixed
  split
  · exact .inl ⟨‹_›, rfl⟩
  · exact .inr ⟨by omega, rfl⟩

/-- READ_TEXT_LEN and the text (R113 to R116). -/
theorem readText_cases (s : State) (off : Nat) :
    (remaining s off < 2 ∧ readText s off = .stop .textPrefix off) ∨
    (2 ≤ remaining s off ∧ remaining s (off + 2) < (Memory.readBE16 s.buf off).toNat ∧
      readText s off = .stop .textBytes (off + 2)) ∨
    (2 ≤ remaining s off ∧ (Memory.readBE16 s.buf off).toNat ≤ remaining s (off + 2) ∧
      readText s off = .got
        { value := .text (asciiText (Memory.readBytes s.buf (off + 2) (Memory.readBE16 s.buf off).toNat)),
          declLen := Memory.readBE16 s.buf off } (off + 2 + (Memory.readBE16 s.buf off).toNat)) := by
  unfold readText
  split
  · exact .inl ⟨‹_›, rfl⟩
  · simp only
    split
    · exact .inr (.inl ⟨by omega, ‹_›, rfl⟩)
    · exact .inr (.inr ⟨by omega, by omega, rfl⟩)

/-- RESULT_CODE_STEP (R119). -/
theorem readResultCode_cases (s : State) (off : Nat) :
    (s.gate = false ∧ readResultCode s off = .got none off) ∨
    (s.gate = true ∧ remaining s off < 1 ∧ readResultCode s off = .stop .resultCode off) ∨
    (s.gate = true ∧ 1 ≤ remaining s off ∧ readResultCode s off = .got (some (Memory.read s.buf off)) (off + 1)) := by
  unfold readResultCode
  split
  · split
    · exact .inr (.inl ⟨‹_›, ‹_›, rfl⟩)
    · exact .inr (.inr ⟨‹_›, by omega, rfl⟩)
  · exact .inl ⟨by simpa using ‹¬s.gate = true›, rfl⟩

/-- Every data-unit operation stops the scan or appends one record (R100, R125): for any value reader. -/
theorem scanUnit_cases (kind : Kind) (h l : Byte) (t : Word16) (readValue : State → Nat → Reading ValueRead) (s : State) :
    (remaining s s.off < 4 ∧ scanUnit kind h l t readValue s = stopScan .unitHeader s.off s) ∨
    (4 ≤ remaining s s.off ∧ ∃ c off, readValue s (s.off + 4) = .stop c off ∧
      scanUnit kind h l t readValue s = stopScan c off s) ∨
    (4 ≤ remaining s s.off ∧ ∃ v off, readValue s (s.off + 4) = .got v off ∧
      ∃ c off', readResultCode s off = .stop c off' ∧ scanUnit kind h l t readValue s = stopScan c off' s) ∨
    (4 ≤ remaining s s.off ∧ ∃ v off, readValue s (s.off + 4) = .got v off ∧
      ∃ rc off', readResultCode s off = .got rc off' ∧ scanUnit kind h l t readValue s =
        appendRecord ⟨s.off, h, l, tabnoWord h l, t, kind, v.value, v.declLen, rc⟩ off' s) := by
  unfold scanUnit
  split
  · exact .inl ⟨‹_›, rfl⟩
  · have hrem : 4 ≤ remaining s s.off := by omega
    cases hv : readValue s (s.off + 4) with
    | stop c off => exact .inr (.inl ⟨hrem, c, off, rfl, rfl⟩)
    | got v off =>
      cases hr : readResultCode s off with
      | stop c off' => exact .inr (.inr (.inl ⟨hrem, v, off, rfl, c, off', hr, by simp only [hr]⟩))
      | got rc off' => exact .inr (.inr (.inr ⟨hrem, v, off, rfl, rc, off', hr, by simp only [hr]⟩))

/-- The value reader each kind uses (R105 to R109). -/
def readerOf : Kind → State → Nat → Reading ValueRead
  | .text => readText
  | .uint => readFixed .unsigned
  | .int => readFixed .signed
  | .enum => readFixed .signed
  | .dflt => readFixed .signed

/-- Whatever the kind, running the operation a unit header selects is one data-unit operation over the kind's reader. -/
theorem exec_unitInstr (h l : Byte) (t : Word16) (s : State) :
    exec (unitInstr h l t) s = inPhase .scan s (scanUnit (kindOfType t) h l t (readerOf (kindOfType t)) s) := by
  rcases kindOfType_cases t with ⟨rfl, -⟩ | ⟨rfl, -⟩ | ⟨rfl, -⟩ | ⟨rfl, -⟩ | ⟨-, hk⟩
  · rfl
  · rfl
  · rfl
  · rfl
  · rw [unitInstr, hk]; rfl

theorem unitInstr_wellFormed (h l : Byte) (t : Word16) : (unitInstr h l t).wellFormed = true := by
  rcases kindOfType_cases t with ⟨rfl, -⟩ | ⟨rfl, -⟩ | ⟨rfl, -⟩ | ⟨rfl, -⟩ | ⟨h, hk⟩
  · rfl
  · rfl
  · rfl
  · rfl
  · rw [unitInstr, hk]
    simpa [Instr.wellFormed] using h

/-- The four fetched bytes, decoded. -/
theorem decode_fetchUnit (s : State) :
    decode (.unit (fetchUnit s)) = .ok (unitInstr (Memory.read s.buf s.off) (Memory.read s.buf (s.off + 1))
      (Memory.readBE16 s.buf (s.off + 2))) := rfl

/-- One turn of the scan loop (R100), with the header fields read from the buffer. -/
theorem scannerStep_eq (s : State) :
    scannerStep s = inPhase .scan s (scanUnit (kindOfType (Memory.readBE16 s.buf (s.off + 2))) (Memory.read s.buf s.off)
      (Memory.read s.buf (s.off + 1)) (Memory.readBE16 s.buf (s.off + 2))
      (readerOf (kindOfType (Memory.readBE16 s.buf (s.off + 2)))) s) := by
  unfold scannerStep
  split
  · rw [scanEnd, scanUnit, if_pos ‹_›]
  · rw [decode_fetchUnit]
    simp only
    rw [exec_unitInstr]

/-- The decoder's step, phase by phase (R14, R157): it always answers a next state. -/
theorem decoderStep_eq (s : State) :
    (s.phase = .header ∧ s.disturbed = false ∧ s.n < 15 ∧ decoderStep s = .next (raiseTruncatedHeader s)) ∨
    (s.phase = .header ∧ s.disturbed = false ∧ 15 ≤ s.n ∧ decoderStep s = .next (loadHeader s)) ∨
    (s.phase = .scan ∧ s.disturbed = false ∧ decoderStep s = .next (scanUnit
      (kindOfType (Memory.readBE16 s.buf (s.off + 2))) (Memory.read s.buf s.off) (Memory.read s.buf (s.off + 1))
      (Memory.readBE16 s.buf (s.off + 2)) (readerOf (kindOfType (Memory.readBE16 s.buf (s.off + 2)))) s)) ∨
    (s.phase = .trailer ∧ s.disturbed = false ∧
      decoderStep s = .next { loadEndFlag (loadCrc s) with phase := .done }) ∨
    (s.busy = true ∧ s.disturbed = true ∧ decoderStep s = .next (disturbedOp s)) ∨
    (s.busy = false ∧ decoderStep s = .next s) := by
  have hscan : s.phase = .scan → decoderStep s = scannerStep s := fun h => by unfold decoderStep; rw [h]
  have hhdr : s.phase = .header → decoderStep s = execHdr s := fun h => by unfold decoderStep; rw [h]; rfl
  have htrl : s.phase = .trailer → decoderStep s = execTrl s := fun h => by unfold decoderStep; rw [h]; rfl
  have hrest : s.busy = false → decoderStep s = .next s := fun h => by
    unfold decoderStep
    cases hp : s.phase <;> simp [State.busy, Phase.busy, hp] at h <;> rfl
  cases hb : s.busy with
  | false => exact .inr (.inr (.inr (.inr (.inr ⟨rfl, hrest hb⟩))))
  | true =>
    cases hd : s.disturbed with
    | true =>
      refine .inr (.inr (.inr (.inr (.inl ⟨rfl, rfl, ?_⟩))))
      cases hp : s.phase with
      | idle => simp [State.busy, Phase.busy, hp] at hb
      | done => simp [State.busy, Phase.busy, hp] at hb
      | error => simp [State.busy, Phase.busy, hp] at hb
      | header => rw [hhdr hp, execHdr, inPhase_of_disturbed _ hp hd]
      | scan => rw [hscan hp, scannerStep_eq s, inPhase_of_disturbed _ hp hd]
      | trailer => rw [htrl hp, execTrl, inPhase_of_disturbed _ hp hd]
    | false =>
      cases hp : s.phase with
      | idle => simp [State.busy, Phase.busy, hp] at hb
      | done => simp [State.busy, Phase.busy, hp] at hb
      | error => simp [State.busy, Phase.busy, hp] at hb
      | header =>
        rw [hhdr hp, execHdr, inPhase_of_phase _ hp hd]
        by_cases hn : s.n < 15
        · exact .inl ⟨rfl, rfl, hn, by rw [if_pos hn]⟩
        · exact .inr (.inl ⟨rfl, rfl, by omega, by rw [if_neg hn]⟩)
      | scan => exact .inr (.inr (.inl ⟨rfl, rfl, by rw [hscan hp, scannerStep_eq s, inPhase_of_phase _ hp hd]⟩))
      | trailer => exact .inr (.inr (.inr (.inl ⟨rfl, rfl, by rw [htrl hp, execTrl, inPhase_of_phase _ hp hd]⟩)))

theorem decoderStep_next (s : State) : ∃ t, decoderStep s = .next t := by
  rcases decoderStep_eq s with h | h | h | h | h | h
  · exact ⟨_, h.2.2.2⟩
  · exact ⟨_, h.2.2.2⟩
  · exact ⟨_, h.2.2⟩
  · exact ⟨_, h.2.2⟩
  · exact ⟨_, h.2.2⟩
  · exact ⟨_, h.2⟩

/-- The decoder's step in a disturbed decode (R193). -/
theorem decoderStep_disturbed {s : State} (hb : s.busy = true) (hd : s.disturbed = true) :
    decoderStep s = .next (disturbedOp s) := by
  rcases decoderStep_eq s with h | h | h | h | h | h
  · rw [h.2.1] at hd; cases hd
  · rw [h.2.1] at hd; cases hd
  · rw [h.2.1] at hd; cases hd
  · rw [h.2.1] at hd; cases hd
  · exact h.2.2
  · rw [h.1] at hb; cases hb

/-- The checksum half of TRL (R131). -/
theorem loadCrc_cases (s : State) :
    (2 ≤ remaining s s.off ∧
      loadCrc s = { s with crc := Memory.readBE16 s.buf s.off, crcValid := true, off := s.off + 2 }) ∨
    (remaining s s.off < 2 ∧ loadCrc s = { s with crcValid := false }) := by
  unfold loadCrc
  split
  · exact .inl ⟨‹_›, rfl⟩
  · exact .inr ⟨by omega, rfl⟩

/-- The end-marker half of TRL (R132). -/
theorem loadEndFlag_cases (s : State) :
    (1 ≤ remaining s s.off ∧
      loadEndFlag s = { s with endFlag := Memory.read s.buf s.off, endValid := true, off := s.off + 1 }) ∨
    (remaining s s.off < 1 ∧ loadEndFlag s = { s with endValid := false }) := by
  unfold loadEndFlag
  split
  · exact .inl ⟨‹_›, rfl⟩
  · exact .inr ⟨by omega, rfl⟩

/-- The eight address bytes (R18). -/
theorem loadHeader_address (s : State) (i : Fin 8) : (loadHeader s).address[i] = Memory.read s.buf (4 + i) := by
  match i with
  | ⟨0, _⟩ => rfl
  | ⟨1, _⟩ => rfl
  | ⟨2, _⟩ => rfl
  | ⟨3, _⟩ => rfl
  | ⟨4, _⟩ => rfl
  | ⟨5, _⟩ => rfl
  | ⟨6, _⟩ => rfl
  | ⟨7, _⟩ => rfl

/-- The two sequence bytes (R21). -/
theorem loadHeader_sequence (s : State) (i : Fin 2) : (loadHeader s).sequence[i] = Memory.read s.buf (13 + i) := by
  match i with
  | ⟨0, _⟩ => rfl
  | ⟨1, _⟩ => rfl

/-- The host's buffer write (R191, R193): where it stops, and what it does to a decode that runs. -/
theorem placeByte_cases (a : Nat) (b : Byte) (s : State) :
    (2 ^ s.cfg.offw ≤ a ∧ placeByte a b s = .fault .noSuchOffset) ∨
    (a < 2 ^ s.cfg.offw ∧ s.busy = true ∧ a < s.n ∧ placeByte a b s =
      .next (loseResults (Config.freeState s.draws) s.phase s.off { s with buf := Memory.place s.buf a b })) ∨
    (a < 2 ^ s.cfg.offw ∧ (s.busy = false ∨ s.n ≤ a) ∧
      placeByte a b s = .next { s with buf := Memory.place s.buf a b }) := by
  unfold placeByte
  split
  · exact .inl ⟨‹_›, rfl⟩
  · by_cases h : s.busy = true ∧ a < s.n
    · exact .inr (.inl ⟨by omega, h.1, h.2, by simp only [if_pos h]⟩)
    · refine .inr (.inr ⟨by omega, ?_, by simp only [if_neg h]⟩)
      cases hb : s.busy with
      | false => exact .inl rfl
      | true => exact .inr (Nat.le_of_not_lt fun hn => h ⟨hb, hn⟩)

/-- A register read answers for HR0 to HR18 and changes the read data and the free-value counter only. -/
theorem readReg_eq_next {reg : Nat} {s t : State} (h : readReg reg s = .next t) :
    ∃ v, viewReg reg s = some v ∧
      t = { s with hostData := v.data (Config.freeBits 32 s.draws), draws := s.draws + 1 } := by
  unfold readReg at h
  split at h
  · cases h
  · rename_i v hv
    exact ⟨v, hv, by simpa using h.symm⟩

/-- A register write that selects no operation (R34, R154). -/
theorem writeReg_cases (w : RegWrite) (s : State) :
    (18 < w.reg ∧ writeReg w s = .refused .noSuchRegister) ∨
    (w.reg = 1 ∧ writeReg w s = .next (setBufLen w.data s)) ∨
    (w.reg ≤ 18 ∧ w.reg ≠ 1 ∧ writeReg w s = .next s) := by
  unfold writeReg
  split
  · exact .inl ⟨‹_›, rfl⟩
  · split
    · exact .inr (.inl ⟨‹_›, rfl⟩)
    · exact .inr (.inr ⟨by omega, ‹_›, rfl⟩)

/-- A host register write, in full (R34, R152 to R156). -/
theorem writeStep_cases (w : RegWrite) (s : State) :
    (w.reg = 0 ∧ w.data.getLsbD 0 = true ∧ writeStep w s = exec .start s) ∨
    (w.reg = 16 ∧ w.data.getLsbD 0 = true ∧ writeStep w s = exec .duPop s) ∨
    (w.reg = 18 ∧ w.data.getLsbD 0 = true ∧ writeStep w s = exec .txPop s) ∨
    (¬ (w.data.getLsbD 0 = true ∧ (w.reg = 0 ∨ w.reg = 16 ∨ w.reg = 18)) ∧ writeStep w s = writeReg w s) := by
  by_cases hb : w.data.getLsbD 0 = true
  · by_cases h0 : w.reg = 0
    · exact .inl ⟨h0, hb, by simp only [writeStep, decode, decodeWrite, if_pos hb, if_pos h0]⟩
    by_cases h16 : w.reg = 16
    · exact .inr (.inl ⟨h16, hb, by simp only [writeStep, decode, decodeWrite, if_pos hb, if_neg h0, if_pos h16]⟩)
    by_cases h18 : w.reg = 18
    · exact .inr (.inr (.inl ⟨h18, hb, by
        simp only [writeStep, decode, decodeWrite, if_pos hb, if_neg h0, if_neg h16, if_pos h18]⟩))
    refine .inr (.inr (.inr ⟨fun h => ?_, ?_⟩))
    · omega
    · simp only [writeStep, decode, decodeWrite, if_pos hb, if_neg h0, if_neg h16, if_neg h18]
  · exact .inr (.inr (.inr ⟨fun h => hb h.1, by simp only [writeStep, decode, decodeWrite, if_neg hb]⟩))

/-- The step (log 1): the decoder when no host event is pending, else the oldest event. -/
theorem stepBlock_nil {s : State} (h : s.pending = []) : stepBlock s = decoderStep s := by
  unfold stepBlock; rw [h]

theorem stepBlock_cons {s : State} {e : HostEvent} {rest : List HostEvent} (h : s.pending = e :: rest) :
    stepBlock s = hostStep e { s with pending := rest } := by
  unfold stepBlock; rw [h]

end Sys2Proof.Machine
end

