-- ==== Sys2Proof/Laws/Step.lean ====
section
/-! SUPPORT. What exec and the decoder's step can do, said once for all operations. -/

namespace Sys2Proof.Machine

open Sys2Proof.Safety

/-- DIRECTION as arithmetic on the function byte (R20). -/
theorem directionOf_eq (b : Byte) : directionOf b = decide (b.toNat / 128 % 2 = 1) := by
  rw [directionOf, ← BitVec.testBit_toNat, Nat.testBit_eq_decide_div_mod_eq]

/-- A data-unit operation is one operation over its unit form's reader. -/
theorem exec_unit {i : Instr} {f : UnitForm} (h : unitForm i = some f) (s : State) :
    exec i s = inPhase .scan s (scanUnit f.kind f.daH f.daL f.typeWord (readerOf f.kind) s) := by
  cases i <;> simp only [unitForm, Option.some.injEq, reduceCtorEq] at h <;> subst h <;> rfl

/-- All an operation can do when it answers a next state. -/
theorem exec_next_cases {i : Instr} {s t : State} (h : exec i s = .next t) :
    (i = .hdr ∧ s.phase = .header ∧ s.disturbed = false ∧ s.n < 15 ∧ t = raiseTruncatedHeader s) ∨
    (i = .hdr ∧ s.phase = .header ∧ s.disturbed = false ∧ 15 ≤ s.n ∧ t = loadHeader s) ∨
    (s.phase = .scan ∧ s.disturbed = false ∧ (∃ f, unitForm i = some f) ∧
      ∃ c off, c ≠ .none ∧ (s.gate = false → c ≠ .resultCode) ∧ t = stopScan c off s) ∨
    (s.phase = .scan ∧ s.disturbed = false ∧ (∃ f, unitForm i = some f) ∧
      ∃ r off, (s.gate = false → r.resultCode = none) ∧ t = appendRecord r off s) ∨
    (i = .trl ∧ s.phase = .trailer ∧ s.disturbed = false ∧ t = { loadEndFlag (loadCrc s) with phase := .done }) ∨
    (s.busy = true ∧ s.disturbed = true ∧ i ≠ .start ∧ i ≠ .reset ∧ t = disturbedOp s) ∨
    (i = .reset ∧ t = resetBlock s) ∨
    (i = .start ∧ s.busy = true ∧ t = s) ∨
    (i = .start ∧ s.busy = false ∧ t = startDecode s) ∨
    (i = .duPop ∧ t = popRecord s) ∨
    (i = .txPop ∧ t = popChar s) := by
  have hbusy : ∀ p : Phase, p.busy = true → s.phase = p → s.busy = true := fun p hp h => by rw [State.busy, h, hp]
  cases hf : unitForm i with
  | some f =>
    rw [exec_unit hf, inPhase_eq_next] at h
    obtain ⟨hp, ⟨hd, h⟩ | ⟨hd, h⟩⟩ := h
    · rcases scanUnit_cases f.kind f.daH f.daL f.typeWord (readerOf f.kind) s with
        ⟨-, he⟩ | ⟨-, c, off, hr, he⟩ | ⟨-, v, off, hr, c, off', hc, he⟩ | ⟨-, v, off, hr, rc, off', hc, he⟩
      · exact .inr (.inr (.inl ⟨hp, hd, ⟨f, rfl⟩, _, _, by simp, by simp, h.trans he⟩))
      · refine .inr (.inr (.inl ⟨hp, hd, ⟨f, rfl⟩, _, _, ?_, ?_, h.trans he⟩))
        all_goals
          cases hk : f.kind <;> rw [hk] at hr <;> simp only [readerOf] at hr <;>
          first
          | (rcases readText_cases s (s.off + 4) with ⟨-, h⟩ | ⟨-, -, h⟩ | ⟨-, -, h⟩ <;> rw [h] at hr <;> cases hr <;> simp)
          | (rcases readFixed_cases .signed s (s.off + 4) with ⟨-, h⟩ | ⟨-, h⟩ <;> rw [h] at hr <;> cases hr <;> simp)
          | (rcases readFixed_cases .unsigned s (s.off + 4) with ⟨-, h⟩ | ⟨-, h⟩ <;> rw [h] at hr <;> cases hr <;> simp)
      · rcases readResultCode_cases s off with ⟨-, h'⟩ | ⟨hg, -, h'⟩ | ⟨-, -, h'⟩ <;> rw [h'] at hc <;> cases hc
        exact .inr (.inr (.inl ⟨hp, hd, ⟨f, rfl⟩, _, _, by simp, by simp [hg], h.trans he⟩))
      · refine .inr (.inr (.inr (.inl ⟨hp, hd, ⟨f, rfl⟩, _, _, ?_, h.trans he⟩)))
        intro hg
        rcases readResultCode_cases s off with ⟨-, h'⟩ | ⟨hg', -, h'⟩ | ⟨hg', -, h'⟩
        · rw [h'] at hc; cases hc; rfl
        · rw [hg] at hg'; cases hg'
        · rw [hg] at hg'; cases hg'
    · refine .inr (.inr (.inr (.inr (.inr (.inl ⟨hbusy _ rfl hp, hd, ?_, ?_, h⟩)))))
      all_goals rintro rfl; cases hf
  | none =>
    cases i <;> simp only [unitForm, reduceCtorEq] at hf
    · rw [exec, execHdr, inPhase_eq_next] at h
      obtain ⟨hp, ⟨hd, h⟩ | ⟨hd, h⟩⟩ := h
      · by_cases hn : s.n < 15
        · rw [if_pos hn] at h
          exact .inl ⟨rfl, hp, hd, hn, h⟩
        · rw [if_neg hn] at h
          exact .inr (.inl ⟨rfl, hp, hd, by omega, h⟩)
      · exact .inr (.inr (.inr (.inr (.inr (.inl ⟨hbusy _ rfl hp, hd, nofun, nofun, h⟩)))))
    · rw [exec, execTrl, inPhase_eq_next] at h
      obtain ⟨hp, ⟨hd, h⟩ | ⟨hd, h⟩⟩ := h
      · exact .inr (.inr (.inr (.inr (.inl ⟨rfl, hp, hd, h⟩))))
      · exact .inr (.inr (.inr (.inr (.inr (.inl ⟨hbusy _ rfl hp, hd, nofun, nofun, h⟩)))))
    · injection h with h; simp [h]
    · simp only [exec, execStart] at h
      injection h with h
      by_cases hb : s.busy = true
      · rw [if_pos hb] at h; subst h; simp [hb]
      · rw [if_neg hb] at h; simp [hb, h]
    · injection h with h; simp [h]
    · injection h with h; simp [h]

end Sys2Proof.Machine
end

