-- ==== Sys2Proof/Laws/Scan.lean ====
section
/-! SUPPORT. What one turn of the scan loop does, in full: where it stops, or the record it appends and the span it
consumes (R100 to R125). -/

namespace Sys2Proof.Machine

open Sys2Proof.Safety

theorem isAscii_eq (b : Byte) : isAscii b = decide (b.toNat < 128) := by
  have hb := b.isLt
  rw [isAscii, ← BitVec.testBit_toNat, Nat.testBit_eq_decide_div_mod_eq]
  rw [← decide_not]
  exact decide_eq_decide.2 (by omega)

theorem asciiText_isAscii {raw : List Byte} {c : Byte} (h : c ∈ asciiText raw) : isAscii c = true :=
  (List.mem_filter.1 h).2

theorem asciiText_length_le (raw : List Byte) : (asciiText raw).length ≤ raw.length := List.length_filter_le ..

theorem asciiText_append (xs ys : List Byte) : asciiText (xs ++ ys) = asciiText xs ++ asciiText ys :=
  List.filter_append ..

/-- The kind's value reader, from any offset within the frame: it stops where R123 says, or reads a value of the kind's
shape. -/
theorem readerOf_cases (k : Kind) (s : State) (u : Nat) (hu : u + 4 ≤ s.n) :
    (∃ c off, readerOf k s (u + 4) = .stop c off ∧ c ≠ .none ∧ c ≠ .resultCode ∧ stoppedAt c u off s.n ∧ u ≤ off ∧
      off ≤ s.n) ∨
    (∃ v off, readerOf k s (u + 4) = .got v off ∧ valueOk k v.value v.declLen ∧ off ≤ s.n ∧ u + 6 ≤ off ∧
      ∀ r : Record, r.value = v.value → r.declLen = v.declLen → r.resultCode = none → off = u + r.span) := by
  have fixed : ∀ tag : Word32 → Value, (∀ w, valueOk k (tag w) 4) →
      (∀ (r : Record) w, r.value = tag w → r.resultCode = none → r.span = 8) →
      readerOf k s (u + 4) = readFixed tag s (u + 4) →
      (∃ c off, readerOf k s (u + 4) = .stop c off ∧ c ≠ .none ∧ c ≠ .resultCode ∧ stoppedAt c u off s.n ∧ u ≤ off ∧
        off ≤ s.n) ∨
      (∃ v off, readerOf k s (u + 4) = .got v off ∧ valueOk k v.value v.declLen ∧ off ≤ s.n ∧ u + 6 ≤ off ∧
        ∀ r : Record, r.value = v.value → r.declLen = v.declLen → r.resultCode = none → off = u + r.span) := by
    intro tag hv hs he
    rw [he]
    rcases readFixed_cases tag s (u + 4) with ⟨hr, h⟩ | ⟨hr, h⟩
    · exact .inl ⟨_, _, h, by simp, by simp, ⟨rfl, hr⟩, by omega, hu⟩
    · rw [remaining] at hr
      refine .inr ⟨_, _, h, hv _, by omega, by omega, fun r hr _ hc => ?_⟩
      rw [hs r _ hr hc]
  cases k with
  | text =>
    rcases readText_cases s (u + 4) with ⟨hr, h⟩ | ⟨hr, hl, h⟩ | ⟨hr, hl, h⟩
    · exact .inl ⟨_, _, h, by simp, by simp, ⟨rfl, hr⟩, by omega, hu⟩
    · rw [remaining] at hr hl
      have hlt := (Memory.readBE16 s.buf (u + 4)).isLt
      exact .inl ⟨_, _, h, by simp, by simp, ⟨rfl, by omega⟩, by omega, by omega⟩
    · rw [remaining] at hr hl
      refine .inr ⟨_, _, h, ⟨fun c hc => asciiText_isAscii hc, ?_⟩, by omega, by omega, fun r hv hd hc => ?_⟩
      · exact Nat.le_trans (asciiText_length_le _) (by simp)
      · simp only [Record.span, hv, hd, hc]; omega
  | uint => exact fixed .unsigned (fun _ => rfl) (fun r w hv hc => by simp [Record.span, hv, hc]) rfl
  | int => exact fixed .signed (fun _ => rfl) (fun r w hv hc => by simp [Record.span, hv, hc]) rfl
  | enum => exact fixed .signed (fun _ => rfl) (fun r w hv hc => by simp [Record.span, hv, hc]) rfl
  | dflt => exact fixed .signed (fun _ => rfl) (fun r w hv hc => by simp [Record.span, hv, hc]) rfl

/-- One turn of the scan loop, whatever the unit header: it stops with a cause where R123 says, or it appends one record
of the unit's fields, whose span is what it consumes. -/
theorem scanUnit_spec (h l : Byte) (t : Word16) (s : State) (hle : s.off ≤ s.n) :
    (∃ c off, scanUnit (kindOfType t) h l t (readerOf (kindOfType t)) s = stopScan c off s ∧ c ≠ .none ∧
      (s.gate = false → c ≠ .resultCode) ∧ stoppedAt c s.off off s.n ∧ s.off ≤ off ∧ off ≤ s.n) ∨
    (∃ r, scanUnit (kindOfType t) h l t (readerOf (kindOfType t)) s = appendRecord r (s.off + r.span) s ∧
      r.unitOff = s.off ∧ r.daH = h ∧ r.daL = l ∧ r.typeWord = t ∧ RecordOk s.gate r ∧ 6 ≤ r.span ∧
      s.off + r.span ≤ s.n) := by
  by_cases hr : remaining s s.off < 4
  · refine .inl ⟨_, _, if_pos hr, by simp, by simp, ⟨rfl, hr⟩, Nat.le_refl _, hle⟩
  · have hu : s.off + 4 ≤ s.n := by rw [remaining] at hr; omega
    rcases readerOf_cases (kindOfType t) s s.off hu with
      ⟨c, off, he, hc, hc', hs, h1, h2⟩ | ⟨v, off, he, hv, h1, h2, hspan⟩
    · exact .inl ⟨c, off, by simp only [scanUnit, if_neg hr, he], hc, fun _ => hc', hs, h1, h2⟩
    · rcases readResultCode_cases s off with ⟨hg, hrc⟩ | ⟨hg, hn, hrc⟩ | ⟨hg, hn, hrc⟩
      · have hoff := hspan ⟨s.off, h, l, tabnoWord h l, t, kindOfType t, v.value, v.declLen, none⟩ rfl rfl rfl
        refine .inr ⟨⟨s.off, h, l, tabnoWord h l, t, kindOfType t, v.value, v.declLen, none⟩, ?_, rfl, rfl, rfl, rfl,
          ⟨rfl, rfl, hv, by simp [hg]⟩, by omega, by omega⟩
        simp only [scanUnit, if_neg hr, he, hrc, ← hoff]
      · rw [remaining] at hn
        refine .inl ⟨.resultCode, off, by simp only [scanUnit, if_neg hr, he, hrc], by simp, by simp [hg],
          ⟨h2, by omega⟩, by omega, h1⟩
      · rw [remaining] at hn
        have hoff := hspan ⟨s.off, h, l, tabnoWord h l, t, kindOfType t, v.value, v.declLen, none⟩ rfl rfl rfl
        have hsp : ∀ b, Record.span ⟨s.off, h, l, tabnoWord h l, t, kindOfType t, v.value, v.declLen, some b⟩ =
            Record.span ⟨s.off, h, l, tabnoWord h l, t, kindOfType t, v.value, v.declLen, none⟩ + 1 := fun _ => rfl
        refine .inr ⟨⟨s.off, h, l, tabnoWord h l, t, kindOfType t, v.value, v.declLen, some (Memory.read s.buf off)⟩,
          ?_, rfl, rfl, rfl, rfl, ⟨rfl, rfl, hv, by simp [hg]⟩, by rw [hsp]; omega, by rw [hsp]; omega⟩
        simp only [scanUnit, if_neg hr, he, hrc, hsp]
        congr 1; omega

/-- The decoder's step in phase SCAN of a decode the host left alone, in full. -/
theorem decoderStep_scan (s : State) (hp : s.phase = .scan) (hd : s.disturbed = false) (hle : s.off ≤ s.n) :
    (∃ c off, decoderStep s = .next (stopScan c off s) ∧ c ≠ .none ∧ (s.gate = false → c ≠ .resultCode) ∧
      stoppedAt c s.off off s.n ∧ s.off ≤ off ∧ off ≤ s.n) ∨
    (∃ r, decoderStep s = .next (appendRecord r (s.off + r.span) s) ∧ r.unitOff = s.off ∧ RecordOk s.gate r ∧
      6 ≤ r.span ∧ s.off + r.span ≤ s.n) := by
  have he : decoderStep s = scannerStep s := by unfold decoderStep; rw [hp]
  rw [he, scannerStep_eq s, inPhase_of_phase _ hp hd]
  rcases scanUnit_spec (Memory.read s.buf s.off) (Memory.read s.buf (s.off + 1)) (Memory.readBE16 s.buf (s.off + 2)) s hle
    with ⟨c, off, h, h'⟩ | ⟨r, h, hu, -, -, -, h'⟩
  · exact .inl ⟨c, off, by rw [h], h'⟩
  · exact .inr ⟨r, by rw [h], hu, h'⟩

end Sys2Proof.Machine
end

