-- ==== Sys2Proof/Laws/Legal.lean ====
section
/-! SUPPORT. Spans of records (R121, R122), and what the trailer and the host leave alone. -/

namespace Sys2Proof.Machine

open Sys2Proof.Safety

/-- A record one further on keeps the spans adjacent. -/
theorem adjacent_append (rs : List Record) (r : Record) :
    ∀ a b, adjacent a rs b → r.unitOff = b → adjacent a (rs ++ [r]) (b + r.span) := by
  induction rs with
  | nil => intro a b h hu; subst h; exact ⟨hu, rfl⟩
  | cons x xs ih => intro a b h hu; exact ⟨h.1, ih _ _ h.2 hu⟩

/-- Every unit has at least six bytes (R122). -/
theorem Record.six_le_span (r : Record) : 6 ≤ r.span := by
  unfold Record.span; split <;> omega

/-- Adjacent spans need at least six bytes each. -/
theorem adjacent_le : ∀ (rs : List Record) (a b : Nat), adjacent a rs b → a + 6 * rs.length ≤ b := by
  intro rs
  induction rs with
  | nil => intro a b h; simp [adjacent] at h; simp [h]
  | cons r rs ih =>
    intro a b h
    have := ih _ _ h.2
    have := r.six_le_span
    simp only [List.length_cons]; omega

/-- What TRL writes. -/
theorem trailer_frame (s : State) : ∃ c cv e ev o,
    ({ loadEndFlag (loadCrc s) with phase := .done } : State) =
      { s with crc := c, crcValid := cv, endFlag := e, endValid := ev, off := o, phase := .done } := by
  rcases loadCrc_cases s with ⟨h, e⟩ | ⟨h, e⟩ <;> rw [e] <;>
    rcases loadEndFlag_cases _ with ⟨h', e'⟩ | ⟨h', e'⟩ <;> rw [e'] <;> exact ⟨_, _, _, _, _, rfl⟩

/-- A disturbed operation touches nothing but the results, OFF and PHASE (R193). -/
theorem disturbedOp_pending (s : State) : (disturbedOp s).pending = s.pending := by
  cases hb : s.busy with
  | true =>
    obtain ⟨f, p, off, he, -⟩ := disturbedOp_cases s hb
    rw [he]; rfl
  | false => unfold disturbedOp; cases hp : s.phase <;> simp [State.busy, Phase.busy, hp] at hb <;> rfl

/-- The decoder leaves the host events alone. -/
theorem decoderStep_pending {s t : State} (h : decoderStep s = .next t) : t.pending = s.pending := by
  rcases decoderStep_eq s with ⟨-, -, -, he⟩ | ⟨-, -, -, he⟩ | ⟨-, -, he⟩ | ⟨-, -, he⟩ | ⟨-, -, he⟩ | ⟨-, he⟩ <;> rw [he] at h <;>
    injection h with h
  · subst h; rfl
  · subst h; rfl
  · rcases scanUnit_cases _ _ _ _ _ s with
      ⟨-, h1⟩ | ⟨-, c, off, -, h1⟩ | ⟨-, v, off, -, c, off', -, h1⟩ | ⟨-, v, off, -, rc, off', -, h1⟩ <;>
      rw [h1] at h <;> subst h <;> rfl
  · obtain ⟨c, cv, e, ev, o, h'⟩ := trailer_frame s
    rw [← h, h']
  · rw [← h, disturbedOp_pending]
  · rw [← h]

/-- A host event leaves the later ones alone. -/
theorem hostStep_pending {e : HostEvent} {s t : State} (h : hostStep e s = .next t) : t.pending = s.pending := by
  cases e with
  | reset => cases h; rfl
  | wait => exact decoderStep_pending h
  | read reg =>
    obtain ⟨v, -, rfl⟩ := readReg_eq_next h
    rfl
  | place a b =>
    change placeByte a b s = _ at h
    rcases placeByte_cases a b s with ⟨-, he⟩ | ⟨-, -, -, he⟩ | ⟨-, -, he⟩ <;> rw [he] at h <;> cases h <;> rfl
  | write w =>
    change writeStep w s = _ at h
    rcases writeStep_cases w s with ⟨h0, hbit, he⟩ | ⟨-, -, he⟩ | ⟨-, -, he⟩ | ⟨-, he⟩ <;> rw [he] at h
    · simp only [exec, execStart] at h
      injection h with h
      split at h <;> subst h <;> rfl
    · cases h; rfl
    · cases h; rfl
    · rcases writeReg_cases w s with ⟨-, he'⟩ | ⟨-, he'⟩ | ⟨-, -, he'⟩ <;> rw [he'] at h <;> cases h <;> rfl

end Sys2Proof.Machine
end

