-- ==== Sys2Proof/Laws/Registers.lean ====
section
/-! SUPPORT. The laws of host register fields: the bits of a placed field, the number fields side by side make, and which
bits of a read are specified. -/

namespace Sys2Proof.Machine

theorem getLsbD_placeField {w : Nat} (pos : Nat) (v : BitVec w) (i : Nat) :
    (placeField pos v).getLsbD i = (decide (i < 32) && (decide (pos ≤ i) && v.getLsbD (i - pos))) := by
  simp only [placeField, BitVec.getLsbD_shiftLeft, BitVec.getLsbD_setWidth]
  by_cases h : i < 32
  · have : i - pos < 32 := by omega
    by_cases h' : i < pos
    · have h'' : ¬ pos ≤ i := by omega
      simp [h, h', h'']
    · have h'' : pos ≤ i := by omega
      simp [h, h', h'', this]
  · simp [h]

/-- Which bits a field's mask covers. -/
theorem getLsbD_unlessValid (valid : Bool) (w pos i : Nat) :
    (unlessValid valid w pos).getLsbD i = (!valid && (decide (i < 32) && (decide (pos ≤ i) && decide (i - pos < w)))) := by
  cases valid
  · rw [unlessValid, if_neg (by decide), getLsbD_placeField, BitVec.getLsbD_allOnes]; simp
  · simp [unlessValid]

theorem placeField_toNat {w : Nat} (pos : Nat) (v : BitVec w) (h : pos + w ≤ 32) :
    (placeField pos v).toNat = v.toNat * 2 ^ pos := by
  have hv : v.toNat * 2 ^ pos < 2 ^ (w + pos) := by
    rw [Nat.pow_add]; exact Nat.mul_lt_mul_of_pos_right v.isLt (Nat.two_pow_pos pos)
  have h32 : 2 ^ (w + pos) ≤ 2 ^ 32 := Nat.pow_le_pow_right (by decide) (by omega)
  have hw : v.toNat < 2 ^ 32 := Nat.lt_of_lt_of_le v.isLt (Nat.pow_le_pow_right (by decide) (by omega))
  rw [placeField, BitVec.toNat_shiftLeft, BitVec.toNat_setWidth, Nat.mod_eq_of_lt hw, Nat.shiftLeft_eq,
    Nat.mod_eq_of_lt (by omega)]

/-- A field beside higher ones: the register is their sum. -/
theorem or_placeField_toNat {w : Nat} (x : Word32) (pos : Nat) (v : BitVec w) (h : pos + w ≤ 32)
    (hx : x.toNat % 2 ^ (pos + w) = 0) : (x ||| placeField pos v).toNat = x.toNat + v.toNat * 2 ^ pos := by
  have hv : v.toNat * 2 ^ pos < 2 ^ (pos + w) := by
    rw [Nat.add_comm, Nat.pow_add]; exact Nat.mul_lt_mul_of_pos_right v.isLt (Nat.two_pow_pos pos)
  have hk : x.toNat = (x.toNat / 2 ^ (pos + w)) <<< (pos + w) := by
    rw [Nat.shiftLeft_eq]; exact (Nat.div_mul_cancel (Nat.dvd_of_mod_eq_zero hx)).symm
  rw [BitVec.toNat_or, placeField_toNat pos v h, hk, ← Nat.shiftLeft_add_eq_or_of_lt hv]

/-- A read returns the specified bits and a free value's bits elsewhere. -/
theorem RegView.getLsbD_data (v : RegView) (f : Word32) (i : Nat) (h : i < 32) :
    (v.data f).getLsbD i = if v.unspecified.getLsbD i = true then f.getLsbD i else v.value.getLsbD i := by
  simp only [RegView.data, BitVec.getLsbD_or, BitVec.getLsbD_and, BitVec.getLsbD_not, h]
  cases v.unspecified.getLsbD i <;> simp

/-- A field of a read whose bits are all specified. -/
theorem RegView.extract_data (v : RegView) (f : Word32) (p w : Nat) (x : BitVec w) (hp : p + w ≤ 32)
    (h : ∀ i, i < w → v.unspecified.getLsbD (p + i) = false ∧ v.value.getLsbD (p + i) = x.getLsbD i) :
    (v.data f).extractLsb' p w = x := by
  apply BitVec.eq_of_getLsbD_eq
  intro i hi
  rw [BitVec.getLsbD_extractLsb', RegView.getLsbD_data _ _ _ (by omega), (h i hi).1, (h i hi).2]
  simp [hi]

theorem RegView.data_eq_value (v : RegView) (f : Word32) (h : v.unspecified = 0) : v.data f = v.value := by
  apply BitVec.eq_of_getLsbD_eq
  intro i hi
  rw [RegView.getLsbD_data _ _ _ hi, h]
  simp

@[simp] theorem data_plain (v f : Word32) : (plain v).data f = v := RegView.data_eq_value _ _ rfl

/-- HR0 to HR18 exist. -/
theorem viewReg_some (reg : Nat) (s : State) (h : reg ≤ 18) : ∃ v, viewReg reg s = some v := by
  have : reg = 0 ∨ reg = 1 ∨ reg = 2 ∨ reg = 3 ∨ reg = 4 ∨ reg = 5 ∨ reg = 6 ∨ reg = 7 ∨ reg = 8 ∨ reg = 9 ∨ reg = 10 ∨
    reg = 11 ∨ reg = 12 ∨ reg = 13 ∨ reg = 14 ∨ reg = 15 ∨ reg = 16 ∨ reg = 17 ∨ reg = 18 := by omega
  rcases this with h | h | h | h | h | h | h | h | h | h | h | h | h | h | h | h | h | h | h <;> subst h <;> exact ⟨_, rfl⟩

/-- A number above 18 names no register. -/
theorem viewReg_none (reg : Nat) (s : State) (h : 18 < reg) : viewReg reg s = none := by
  obtain ⟨k, rfl⟩ : ∃ k, reg = k + 19 := ⟨reg - 19, by omega⟩
  rfl

/-- An OFFW-bit field shows its quantity when the quantity fits. -/
theorem offsetField_toNat (s : State) (x : Nat) (hx : x < 2 ^ s.cfg.offw) (hw : s.cfg.offw ≤ 32) :
    (offsetField s x).toNat = x := by
  have : 2 ^ s.cfg.offw ≤ 2 ^ 32 := Nat.pow_le_pow_right (by decide) hw
  rw [offsetField, Nat.mod_eq_of_lt hx, BitVec.toNat_ofNat, Nat.mod_eq_of_lt (by omega)]

end Sys2Proof.Machine
end

