-- ==== Sys2Proof/Laws/Run.lean ====
section
/-! SUPPORT. Runs of several steps: one step after another, and two runs end to end. Stated first for any machine, then for
this one. -/

namespace Sys2Proof.Machine

/-- A run of one step more, by the answer of its first step. -/
theorem run_unfold (M : Host.Core) (k : Nat) (s : M.State) :
    Host.Core.run M (k + 1) s =
      match M.step s with
      | .next t => Host.Core.run M k t
      | .fault r => .fault r
      | .refused r => .refused r := rfl

theorem run_succ_of (M : Host.Core) {s t : M.State} (h : M.step s = .next t) (k : Nat) :
    Host.Core.run M (k + 1) s = Host.Core.run M k t := by rw [run_unfold, h]

theorem run_succ_next_of (M : Host.Core) {s u : M.State} {k : Nat} (h : Host.Core.run M (k + 1) s = .next u) :
    ∃ t, M.step s = .next t ∧ Host.Core.run M k t = .next u := by
  rw [run_unfold] at h
  split at h
  · exact ⟨_, ‹_›, h⟩
  · cases h
  · cases h

theorem run_add_of (M : Host.Core) {t : M.State} (k : Nat) : ∀ {j : Nat} {s : M.State},
    Host.Core.run M j s = .next t → Host.Core.run M (j + k) s = Host.Core.run M k t
  | 0, _, h => by cases h; rw [Nat.zero_add]
  | j + 1, _, h => by
    obtain ⟨u, hu, hr⟩ := run_succ_next_of M h
    rw [Nat.succ_add, run_succ_of M hu, run_add_of M k hr]

theorem step_nil {s : State} (h : s.pending = []) : step s = decoderStep s := stepBlock_nil h

theorem step_cons {s : State} {e : HostEvent} {rest : List HostEvent} (h : s.pending = e :: rest) :
    step s = hostStep e { s with pending := rest } := stepBlock_cons h

/-- A run that begins with a step that answers a next state. -/
theorem run_succ {s t : State} (h : step s = .next t) (k : Nat) :
    Host.Core.run core (k + 1) s = Host.Core.run core k t := run_succ_of core h k

/-- The first step of a run that completes. -/
theorem run_succ_next {s u : State} {k : Nat} (h : Host.Core.run core (k + 1) s = .next u) :
    ∃ t : State, step s = .next t ∧ Host.Core.run core k t = .next u := run_succ_next_of core h

/-- Two runs end to end. -/
theorem run_add {s t : State} {j : Nat} (k : Nat) (h : Host.Core.run core j s = .next t) :
    Host.Core.run core (j + k) s = Host.Core.run core k t := run_add_of core k h

end Sys2Proof.Machine
end

