-- ==== Sys2Proof/Laws/Same.lean ====
section
/-! SUPPORT. When two states are at the same point of the same decode: an equivalence, and what a decode reads agrees. -/

namespace Sys2Proof.Machine

open Sys2Proof.Safety

theorem sameDecode_refl (s : State) : SameDecode s s :=
  ⟨rfl, rfl, fun _ _ => rfl, rfl, rfl, rfl, rfl, fun _ => ⟨rfl, rfl, rfl, rfl, rfl, rfl⟩, rfl,
    fun _ => rfl, rfl, fun _ => rfl, rfl, rfl, rfl, rfl, fun _ => rfl⟩

theorem sameDecode_symm {s t : State} (h : SameDecode s t) : SameDecode t s where
  rcGate := h.rcGate.symm
  n := h.n.symm
  buf a ha := (h.buf a (h.n ▸ ha)).symm
  off := h.off.symm
  phase := h.phase.symm
  disturbed := h.disturbed.symm
  hdrValid := h.hdrValid.symm
  header hp := by
    have := h.header (h.phase ▸ hp)
    exact ⟨this.1.symm, this.2.symm, this.3.symm, this.4.symm, this.5.symm, this.6.symm⟩
  crcValid := h.crcValid.symm
  crc hc := (h.crc (h.crcValid ▸ hc)).symm
  endValid := h.endValid.symm
  endFlag hc := (h.endFlag (h.endValid ▸ hc)).symm
  units := h.units.symm
  unitCount := h.unitCount.symm
  errCode := h.errCode.symm
  stopCause := h.stopCause.symm
  scanOff hs := (h.scanOff (h.stopCause ▸ hs)).symm

theorem sameDecode_trans {s t u : State} (h : SameDecode s t) (g : SameDecode t u) : SameDecode s u where
  rcGate := h.rcGate.trans g.rcGate
  n := h.n.trans g.n
  buf a ha := (h.buf a ha).trans (g.buf a (h.n ▸ ha))
  off := h.off.trans g.off
  phase := h.phase.trans g.phase
  disturbed := h.disturbed.trans g.disturbed
  hdrValid := h.hdrValid.trans g.hdrValid
  header hp := by
    have a := h.header hp
    have b := g.header (h.phase ▸ hp)
    exact ⟨a.1.trans b.1, a.2.trans b.2, a.3.trans b.3, a.4.trans b.4, a.5.trans b.5, a.6.trans b.6⟩
  crcValid := h.crcValid.trans g.crcValid
  crc hc := (h.crc hc).trans (g.crc (h.crcValid ▸ hc))
  endValid := h.endValid.trans g.endValid
  endFlag hc := (h.endFlag hc).trans (g.endFlag (h.endValid ▸ hc))
  units := h.units.trans g.units
  unitCount := h.unitCount.trans g.unitCount
  errCode := h.errCode.trans g.errCode
  stopCause := h.stopCause.trans g.stopCause
  scanOff hs := (h.scanOff hs).trans (g.scanOff (h.stopCause ▸ hs))

/-- The pending host events are no part of the decode. -/
theorem sameDecode_pending (s : State) (p : List HostEvent) : SameDecode s { s with pending := p } :=
  { sameDecode_refl s with header := fun hp => { (sameDecode_refl s).header hp with } }

theorem Memory.readBE16_congr {m m' : Memory} {a : Nat} (h0 : Memory.read m a = Memory.read m' a)
    (h1 : Memory.read m (a+1) = Memory.read m' (a+1)) :
    m.readBE16 a = m'.readBE16 a := by simp [Memory.readBE16, h0, h1]

theorem Memory.readBE32_congr {m m' : Memory} {a : Nat} (h : ∀ i, a ≤ i → i < a + 4 → Memory.read m i = Memory.read m' i) :
    m.readBE32 a = m'.readBE32 a := by
  simp only [Memory.readBE32]
  rw [Memory.readBE16_congr (h a (by omega) (by omega)) (h (a+1) (by omega) (by omega)),
    Memory.readBE16_congr (h (a+2) (by omega) (by omega)) (h (a+2+1) (by omega) (by omega))]

/-- The kinds' value readers agree. -/
theorem readerOf_congr (k : Kind) {s t : State} (h : SameDecode s t) (u : Nat) : readerOf k s u = readerOf k t u := by
  have hn := h.n
  have hfix : ∀ tag, readFixed tag s u = readFixed tag t u := by
    intro tag
    rcases readFixed_cases tag s u with ⟨h1, e1⟩ | ⟨h1, e1⟩ <;>
      rcases readFixed_cases tag t u with ⟨h2, e2⟩ | ⟨h2, e2⟩ <;>
      simp only [remaining] at h1 h2 <;> first | omega | rw [e1, e2]
    rw [Memory.readBE32_congr fun i h1 h2 => h.buf i (by omega)]
  cases k with
  | text =>
    show readText s u = readText t u
    have he : 2 ≤ s.n - u → s.buf.readBE16 u = t.buf.readBE16 u := fun hr =>
      Memory.readBE16_congr (h.buf _ (by omega)) (h.buf _ (by omega))
    rcases readText_cases s u with ⟨h1, e1⟩ | ⟨h1, h1', e1⟩ | ⟨h1, h1', e1⟩ <;>
      rcases readText_cases t u with ⟨h2, e2⟩ | ⟨h2, h2', e2⟩ | ⟨h2, h2', e2⟩ <;>
      simp only [remaining] at * <;> first | omega | (try rw [← he (by omega)] at *) <;> first | omega | rw [e1, e2]
    rw [Memory.readBytes_congr _ _ fun i h1 h2 => h.buf i (by omega)]
  | _ => exact hfix _

/-- The result-code step agrees. -/
theorem readResultCode_congr {s t : State} (h : SameDecode s t) (hp : s.phase = .scan) (u : Nat) :
    readResultCode s u = readResultCode t u := by
  have hg : s.gate = t.gate := by simp only [State.gate, h.rcGate, (h.header (.inl hp)).functionCode]
  have hn := h.n
  rcases readResultCode_cases s u with ⟨h1, e1⟩ | ⟨h1, h1', e1⟩ | ⟨h1, h1', e1⟩ <;>
    rcases readResultCode_cases t u with ⟨h2, e2⟩ | ⟨h2, h2', e2⟩ | ⟨h2, h2', e2⟩ <;>
    rw [e1, e2] <;> simp only [remaining] at * <;> (first | omega | (rw [hg, h2] at h1; cases h1))
  rw [h.buf u (by omega)]

end Sys2Proof.Machine
end

