-- ==== Sys2Proof/Laws/Schedule.lean ====
section
/-! SUPPORT. The byte schedules: runs end to end, and what the byte-by-byte registers hold. -/

namespace Sys2Proof.Machine

open Sys2Proof.Safety

theorem microRun_add (j k : Nat) : ∀ m, microRun (j + k) m = microRun k (microRun j m) := by
  induction j with
  | zero => intro m; simp [microRun]
  | succ j ih => intro m; rw [Nat.succ_add]; exact ih _

/-- Two bytes, more significant first, fill a 16-bit register whatever it held. -/
theorem setLow_setHigh (a b : Byte) (w : Word16) : setLow b (setHigh a w) = joinBytes a b := by
  simp [setLow, setHigh]

/-- Four bytes fill the value word whatever it held (rows U_V3 to U_V0 of R124). -/
theorem shiftIn_four (w : Word32) (a b c d : Byte) :
    shiftIn (shiftIn (shiftIn (shiftIn w a) b) c) d = joinBytes a b ++ joinBytes c d := by
  apply BitVec.eq_of_getLsbD_eq
  intro i hi
  rw [BitVec.getLsbD_append, joinBytes_getLsbD, joinBytes_getLsbD]
  simp only [shiftIn, BitVec.getLsbD_or, BitVec.getLsbD_shiftLeft, BitVec.getLsbD_setWidth, hi, decide_true, Bool.true_and]
  by_cases h1 : i < 8
  · have : i < 16 := by omega
    simp [h1, this]
  · by_cases h2 : i < 16
    · have e1 : i - 8 < 8 := by omega
      have e2 : i - 8 < 32 := by omega
      simp [h1, h2, e1, e2, BitVec.getLsbD_of_ge d i (by omega)]
    · by_cases h3 : i < 24
      · have e0 : ¬ i - 8 < 8 := by omega
        have e1 : i - 8 - 8 < 8 := by omega
        have e2 : i - 8 < 32 := by omega
        have e3 : i - 8 - 8 < 32 := by omega
        have e4 : i - 16 < 8 := by omega
        have e5 : i - 8 - 8 = i - 16 := by omega
        have e6 : i - 16 < 32 := by omega
        simp [h1, h2, e0, e2, e4, e5, e6, BitVec.getLsbD_of_ge d i (by omega), BitVec.getLsbD_of_ge c (i - 8) (by omega)]
      · have e0 : ¬ i - 8 < 8 := by omega
        have e1 : ¬ i - 16 < 8 := by omega
        have e2 : i - 8 < 32 := by omega
        have e5 : i - 8 - 8 = i - 16 := by omega
        have e6 : i - 16 < 32 := by omega
        have e7 : i - 16 - 8 < 8 := by omega
        have e8 : i - 16 - 8 < 32 := by omega
        simp [h1, h2, e0, e1, e2, e5, e6, e7, e8, BitVec.getLsbD_of_ge d i (by omega),
          BitVec.getLsbD_of_ge c (i - 8) (by omega), BitVec.getLsbD_of_ge b (i - 16) (by omega)]

theorem microRun_scan (k : Nat) (m : Micro) (hp : m.st.phase = .scan) : microRun (k + 1) m = microRun k (microUnit m) := by
  simp only [microRun, microStep, hp]

/-- U_TXT: the remaining text bytes, filtered (R115, R124). -/
theorem microRun_text : ∀ (left : Nat) (s : State) (w : Working), s.phase = .scan →
    ∃ k, microRun k (textOrOn left s w) = afterValue { s with off := s.off + left } { w with
      text := w.text ++ asciiText (Memory.readBytes s.buf s.off left) } := by
  intro left
  induction left with
  | zero => intro s w hp; exact ⟨0, by simp [microRun, textOrOn, Memory.readBytes, asciiText]⟩
  | succ left ih =>
    intro s w hp
    obtain ⟨k, hk⟩ := ih (advance s)
      (if isAscii (s.buf.read s.off) = true then { w with text := w.text ++ [s.buf.read s.off] } else w) hp
    refine ⟨k + 1, ?_⟩
    rw [textOrOn, microRun_scan _ _ hp]
    simp only [microUnit]
    rw [Nat.add_sub_cancel]
    rw [hk]
    simp only [advance, Memory.readBytes, asciiText, List.filter_cons]
    have e : s.off + 1 + left = s.off + (left + 1) := by omega
    rw [e]
    split <;> simp

end Sys2Proof.Machine
end

