-- ==== Sys2Proof/Tests/Slice0.lean ====
section
/-! SUPPORT. Tests of single steps, with results taken from 95_test_vectors.md (each comment names the vector) or worked out
by hand from the numbered rules, and one witness theorem for every statement that has hypotheses. -/

namespace Sys2Proof.Tests

open Sys2Proof Sys2Proof.Machine Sys2Proof.Safety

/-! ## Small states -/

/-- What an answer that is a next state holds. -/
def after {α : Type} (r : Host.Outcome State Fault Refusal) (f : State → α) : Option α :=
  match r with
  | .next t => some (f t)
  | .fault _ => none
  | .refused _ => none

/-- The 15 bytes H of the vectors. -/
def headerH : List Byte := [0x68, 0x00, 0xAB, 0x68, 0x23, 0x35, 0x00, 0x10, 0x00, 0x00, 0x00, 0x11, 0x06, 0x31, 0x61]

/-- The 15 bytes H86 of the vectors. -/
def headerH86 : List Byte := [0x68, 0x00, 0x20, 0x68, 0x01, 0x02, 0x03, 0x04, 0x05, 0x06, 0x07, 0x08, 0x86, 0x00, 0x01]

/-- A buffer handed over and started (70_reset_and_hazards.md R191): PHASE = HEADER. -/
def atHeader (bytes : List Byte) : State :=
  { State.reset with buf := Memory.placeAll [] 0 bytes, nNext := bytes.length, n := bytes.length, phase := .header }

/-- Right after a header, the bytes given standing from offset 15 on: PHASE = SCAN. -/
def atScan (bytes : List Byte) : State :=
  { State.reset with
    buf := Memory.placeAll [] 15 bytes, n := 15 + bytes.length, off := 15, functionCode := 0x06, hdrValid := true, phase := .scan }

/-- The same under RC_GATE = MASKED with FUNCTION_CODE = 0x86, where the gate holds. -/
def atScanMasked (bytes : List Byte) : State :=
  { atScan bytes with cfg := { offw := 32, rcGate := .masked }, functionCode := 0x86 }

/-- A scan stopped at offset 15 with cause 1, the bytes given standing from there on: PHASE = TRAILER. -/
def atTrailer (bytes : List Byte) : State :=
  { atScan bytes with stopCause := .unitHeader, scanOff := 15, phase := .trailer }

/-- The first record of P1. -/
def sampleRecord : Record := ⟨15, 0x01, 0x08, 4, 0x0001, .int, .signed 0xFFFFFFFF, 4, none⟩

/-- A result-code record of P2 under MASKED (its record 1). -/
def sampleRcRecord : Record := ⟨24, 0x01, 0x02, 2, 0x0002, .text, .text [0x4F, 0x4B], 2, some 0x01⟩

/-- A finished decode of a header-only frame (S6). -/
def atDone : State :=
  { atScan [] with stopCause := .unitHeader, scanOff := 15, phase := .done }

/-- A decode that ended in TruncatedHeader (S7). -/
def atError : State :=
  { atHeader (headerH.take 14) with errCode := .truncatedHeader, phase := .error }

/-! ## Well-formedness -/

/-- R63: the fallback never has one of the four listed type words. -/
theorem test_wellFormed_refuses_listed_type_words :
    (Instr.duDflt 1 1 0x0001).wellFormed = false ∧ (Instr.duDflt 1 1 0x0002).wellFormed = false ∧
    (Instr.duDflt 1 1 0x0004).wellFormed = false ∧ (Instr.duDflt 1 1 0x0008).wellFormed = false := by decide

/-- V-F2: these type words are the fallback's. -/
theorem test_wellFormed_takes_unlisted_type_words :
    (Instr.duDflt 1 1 0x0000).wellFormed = true ∧ (Instr.duDflt 1 1 0x0003).wellFormed = true ∧
    (Instr.duDflt 1 1 0x0101).wellFormed = true ∧ (Instr.duDflt 1 1 0x0200).wellFormed = true := by decide

/-! ## Decoding -/

/-- P1, the unit at offset 15. -/
theorem test_decode_int : decode (.unit [0x01, 0x08, 0x00, 0x01]) = .ok (.duInt 0x01 0x08) := by rfl
/-- P1, the unit at offset 31. -/
theorem test_decode_text : decode (.unit [0x01, 0x03, 0x00, 0x02]) = .ok (.duText 0x01 0x03) := by rfl
/-- P1, the unit at offset 40. -/
theorem test_decode_enum : decode (.unit [0x01, 0x05, 0x00, 0x04]) = .ok (.duEnum 0x01 0x05) := by rfl
/-- P1, the unit at offset 23. -/
theorem test_decode_uint : decode (.unit [0x02, 0x01, 0x00, 0x08]) = .ok (.duUint 0x02 0x01) := by rfl
/-- P1, the unit at offset 48, and V-F2: sixteen-bit equality. -/
theorem test_decode_dflt :
    decode (.unit [0x00, 0x00, 0x12, 0x34]) = .ok (.duDflt 0x00 0x00 0x1234) ∧
    decode (.unit [0x01, 0x01, 0x01, 0x01]) = .ok (.duDflt 0x01 0x01 0x0101) ∧
    decode (.unit [0x01, 0x01, 0x00, 0x03]) = .ok (.duDflt 0x01 0x01 0x0003) := ⟨rfl, rfl, rfl⟩
/-- R101: three bytes are no unit header. -/
theorem test_decode_short : decode (.unit [0x01, 0x01, 0x00]) = .error .shortUnitHeader := by rfl
/-- R14: the phases that select an operation by themselves, and one that does not. -/
theorem test_decode_phase :
    decode (.phase .header) = .ok .hdr ∧ decode (.phase .trailer) = .ok .trl ∧
    decode (.phase .done) = .error .noOperationInPhase := ⟨rfl, rfl, rfl⟩
/-- R34: the registers a write of 1 to which is an operation; V-O5: a write of 0 is none. -/
theorem test_decode_host :
    decode .resetInput = .ok .reset ∧ decode (.hostWrite ⟨0, 1⟩) = .ok .start ∧
    decode (.hostWrite ⟨16, 1⟩) = .ok .duPop ∧ decode (.hostWrite ⟨18, 1⟩) = .ok .txPop ∧
    decode (.hostWrite ⟨0, 0⟩) = .error .noOperationInWrite := ⟨rfl, rfl, rfl, rfl, rfl⟩
/-- R62, opcode_table.json: the four rows with fixed bits, and a word with its DA bytes. -/
theorem test_decodeTableWord :
    decodeTableWord 16 1 = some (.duInt 0 0) ∧ decodeTableWord 16 2 = some (.duText 0 0) ∧
    decodeTableWord 16 4 = some (.duEnum 0 0) ∧ decodeTableWord 16 8 = some (.duUint 0 0) ∧
    decodeTableWord 32 0x01080001 = some (.duInt 0x01 0x08) := by decide

/-! ## The step and the fetch -/

/-- From reset, a stored table word is what the next step runs. -/
theorem test_step_runs_fetched_word :
    after (step (State.reset.withFetchWord 16 1)) (fun t => t.units.map Record.kind) = some [.int] ∧
    after (step (State.reset.withFetchWord 16 2)) (fun t => t.units.map Record.kind) = some [.text] ∧
    after (step (State.reset.withFetchWord 16 4)) (fun t => t.units.map Record.kind) = some [.enum] ∧
    after (step (State.reset.withFetchWord 16 8)) (fun t => t.units.map Record.kind) = some [.uint] := by decide

/-- R101: fewer than four bytes, stop cause 1 (V-S1d). -/
theorem test_step_scan_end :
    after (step (atScan [0xAA, 0xBB, 0xCC])) (fun t => (t.stopCause, t.scanOff, t.phase))
      = some (.unitHeader, 15, .trailer) := by decide

/-- The reset state lists nothing and keeps the canonical form. -/
theorem test_reset_memory : State.reset.buf = [] ∧ Memory.wf State.reset.buf := by decide

/-! ## Operations, one step each -/

/-- V-H6. -/
theorem test_hdr :
    after (exec .hdr (atHeader headerH86)) (fun t => (t.startFlag, t.length.toNat, t.startFlag2, t.address))
      = some (0x68, 32, 0x68, #v[1, 2, 3, 4, 5, 6, 7, 8]) ∧
    after (exec .hdr (atHeader headerH86)) (fun t => (t.functionCode, t.direction, t.sequence, t.off))
      = some (0x86, true, #v[0, 1], 15) := by decide
/-- V-H2, S7: fourteen bytes. -/
theorem test_hdr_truncated :
    after (exec .hdr (atHeader (headerH.take 14))) (fun t => (t.errCode, t.phase, t.off, t.hdrValid))
      = some (.truncatedHeader, .error, 0, false) := by decide
/-- S3a. -/
theorem test_duInt :
    after (exec (.duInt 0x01 0x01) (atScan [0x01, 0x01, 0x00, 0x01, 0xFF, 0xFF, 0xFF, 0xFF]))
      (fun t => (t.units.map Record.dataUnit, t.off))
      = some ([⟨(1, 1), 1, 1, .int, .signedInt (-1), none, 4⟩], 23) := by decide
/-- V-S4c: three of four value bytes. -/
theorem test_duInt_short :
    after (exec (.duInt 0x01 0x01) (atScan [0x01, 0x01, 0x00, 0x01, 0x00, 0x00, 0x00]))
      (fun t => (t.stopCause, t.scanOff, t.units)) = some (.fixedValue, 19, []) := by decide
/-- V-T1. -/
theorem test_duText :
    after (exec (.duText 0x01 0x01)
        (atScan [0x01, 0x01, 0x00, 0x02, 0x00, 0x05, 0x41, 0x80, 0x42, 0xFF, 0x00, 0x12, 0x34, 0x16]))
      (fun t => (t.units.map Record.dataUnit, t.off, t.txq))
      = some ([⟨(1, 1), 1, 2, .text, .text [0x41, 0x42, 0x00], none, 5⟩], 26, [0x41, 0x42, 0x00]) := by decide
/-- V-S2b and V-S3b. -/
theorem test_duText_short :
    after (exec (.duText 0x01 0x01) (atScan [0x01, 0x01, 0x00, 0x02, 0x05]))
      (fun t => (t.stopCause, t.scanOff)) = some (.textPrefix, 19) ∧
    after (exec (.duText 0x01 0x01) (atScan [0x01, 0x01, 0x00, 0x02, 0x00, 0x04, 0x41, 0x42, 0x43]))
      (fun t => (t.stopCause, t.scanOff)) = some (.textBytes, 21) := by decide
/-- V-F1, the third unit. -/
theorem test_duEnum :
    after (exec (.duEnum 0x01 0x01) (atScan [0x01, 0x01, 0x00, 0x04, 0xFF, 0xFF, 0xFF, 0xFF]))
      (fun t => t.units.map Record.dataUnit) = some [⟨(1, 1), 1, 4, .enum, .signedInt (-1), none, 4⟩] := by decide
/-- V-F1, the first unit. -/
theorem test_duUint :
    after (exec (.duUint 0x01 0x01) (atScan [0x01, 0x01, 0x00, 0x08, 0xFF, 0xFF, 0xFF, 0xFF]))
      (fun t => t.units.map Record.dataUnit) = some [⟨(1, 1), 1, 8, .uint, .unsignedInt 4294967295, none, 4⟩] := by decide
/-- V-F2, the fourth unit. -/
theorem test_duDflt :
    after (exec (.duDflt 0x01 0x01 0xFFFF) (atScan [0x01, 0x01, 0xFF, 0xFF, 0x80, 0x00, 0x00, 0x00]))
      (fun t => t.units.map Record.dataUnit)
      = some [⟨(1, 1), 1, 65535, .dflt, .signedInt (-2147483648), none, 4⟩] := by decide
/-- P2 under MASKED, its first unit: a result code that is present with value 0. -/
theorem test_result_code :
    after (exec (.duInt 0x01 0x01) (atScanMasked [0x01, 0x01, 0x00, 0x01, 0x00, 0x00, 0x00, 0x10, 0x00]))
      (fun t => (t.units.map Record.resultCode, t.off)) = some ([some 0x00], 24) := by decide
/-- V-S5a: no byte for the result code. -/
theorem test_result_code_short :
    after (exec (.duInt 0x01 0x01) (atScanMasked [0x01, 0x01, 0x00, 0x01, 0x00, 0x00, 0x00, 0x10]))
      (fun t => (t.stopCause, t.scanOff, t.units)) = some (.resultCode, 23, []) := by decide
/-- V-S1d. -/
theorem test_trl :
    after (exec .trl (atTrailer [0xAA, 0xBB, 0xCC])) (fun t => (t.crcValid, t.crc, t.endValid, t.endFlag, t.off, t.phase))
      = some (true, 0xAABB, true, 0xCC, 18, .done) := by decide
/-- V-S1b: one byte left goes to the end marker. -/
theorem test_trl_one_byte :
    after (exec .trl (atTrailer [0xAA])) (fun t => (t.crcValid, t.endValid, t.endFlag, t.off))
      = some (false, true, 0xAA, 16) := by decide
/-- V-O1, V-O11. -/
theorem test_reset :
    after (exec .reset (atScan [0xAA])) (fun t => (t.phase, t.off, t.n, t.hdrValid, t.units))
      = some (.idle, 0, 0, false, []) := by decide
/-- V-O2 and V-O10: START from IDLE and from ERROR. -/
theorem test_start :
    after (exec .start { State.reset with nNext := 59 }) (fun t => (t.n, t.off, t.phase)) = some (59, 0, .header) ∧
    after (exec .start atError) (fun t => (t.errCode, t.phase)) = some (.none, .header) := by decide
/-- V-O3: START while busy. -/
theorem test_start_busy :
    after (exec .start (atScan [0xAA])) (fun t => t) = some (atScan [0xAA]) := by decide
/-- V-O6, V-O7. -/
theorem test_duPop :
    after (exec .duPop { atDone with duq := [sampleRecord, sampleRcRecord], unitCount := 5 })
      (fun t => (t.duq, t.unitCount)) = some ([sampleRcRecord], 5) ∧
    after (exec .duPop atDone) (fun t => t) = some atDone := by decide
/-- V-O8. -/
theorem test_txPop :
    after (exec .txPop { atDone with txq := [0x41, 0x42, 0x43] }) (fun t => t.txq) = some [0x42, 0x43] ∧
    after (exec .txPop atDone) (fun t => t) = some atDone := by decide

/-! ## Table number and registers -/

/-- 95_test_vectors.md section 2.2. -/
theorem test_tabno :
    tabno 1 0x05 = 4 ∧ tabno 3 0x81 = 41 ∧ tabno 255 0xFF = 16292 ∧ tabno 0 0x01 = -7 ∧ tabno 0 0x7F = -28 ∧
    tabnoWord 0 0x01 = 0xFFF9 := by decide
/-- The register-file view of H (S8), and P1's record 0. -/
theorem test_registers :
    (viewHdrA (loadHeader (atHeader headerH))).value = 0x6800AB68 ∧
    (viewHdrB (loadHeader (atHeader headerH))).value = 0x00063161 ∧
    (viewDuDadt { atDone with duq := [sampleRecord] }).value = 0x01080001 ∧
    (viewDuInfo { atDone with duq := [sampleRecord] }).value = 0x00040004 ∧
    (viewDuValue { atDone with duq := [sampleRecord] }).value = 0xFFFFFFFF ∧
    (viewDuFlags { atDone with duq := [sampleRecord] }).value = 0x00000003 := by decide
/-- P2 under MASKED, DU_FLAGS of record 1; V-S1a, STATUS; V-O8, TX_CHAR. -/
theorem test_registers_flags :
    (viewDuFlags { atDone with duq := [sampleRcRecord] }).value = 0x00000165 ∧
    (viewStatus atDone).value = 0x00000454 ∧ (viewStatus atError).value = 0x00002025 ∧
    (viewTxChar { atDone with txq := [0x42] }).value = 0x00000142 := by decide
/-- V-O4: BUFLEN while a decode runs. -/
theorem test_buflen :
    after (hostStep (.write ⟨1, 20⟩) (atScan [0xAA])) (fun t => (t.nNext, t.n)) = some (20, 16) := by decide

/-- R193: a byte written into the frame while the scan runs is placed, and the decode goes on from where it stands; one
written at N disturbs nothing. -/
theorem test_place_while_busy :
    after (hostStep (.place 15 7) (atScan [0xAA])) (fun t => (Memory.read t.buf 15, t.phase, t.off, t.n, t.disturbed))
      = some (7, .scan, 15, 16, true) ∧
    after (hostStep (.place 16 7) (atScan [0xAA])) (fun t => (t.phase, t.disturbed)) = some (.scan, false) := by decide

/-! ## Legal states -/

theorem inv_atHeader : Inv (atHeader headerH) := by
  constructor
  case results => intro _; constructor <;> first | decide | simp [atHeader, State.reset]
  all_goals first
    | decide
    | simp [atHeader, State.reset]

theorem inv_atScan (bytes : List Byte) (hl : bytes.length < 100) : Inv (atScan bytes) := by
  constructor
  case results => intro _; constructor <;> simp [atScan, State.reset, pastHeader, adjacent]
  all_goals first
    | exact Memory.wf_placeAll _ _ _ List.Pairwise.nil
    | (simp [atScan, State.reset, pastHeader, Params.default, Params.wf]; done)
    | (simp [atScan, State.reset, Params.default]; omega)

theorem inv_atTrailer (bytes : List Byte) (hl : bytes.length < 4) : Inv (atTrailer bytes) := by
  constructor
  case results =>
    intro _
    constructor <;> first
      | exact fun _ => ⟨rfl, 15, rfl, rfl, by simp [atTrailer, atScan]; omega⟩
      | (simp [atTrailer, atScan, State.reset, pastHeader]; done)
  all_goals first
    | exact Memory.wf_placeAll _ _ _ List.Pairwise.nil
    | (simp [atTrailer, atScan, State.reset, pastHeader, Params.default, Params.wf]; done)
    | (simp [atTrailer, atScan, State.reset, Params.default]; omega)

theorem inv_atDone : Inv atDone := by
  constructor
  case results =>
    intro _
    constructor <;> first
      | exact fun _ => ⟨rfl, 15, rfl, rfl, by decide⟩
      | (simp [atDone, atScan, State.reset, pastHeader]; done)
  all_goals simp [atDone, atScan, State.reset, pastHeader, Params.default, Params.wf, Memory.placeAll]

theorem inv_atError : Inv atError := by
  constructor
  case results => intro _; constructor <;> first | decide | simp [atError, atHeader, State.reset]
  all_goals first
    | decide
    | (simp [atError, atHeader, State.reset]; done)

/-- A state with a record: a scan one unit further on (P1 after its first unit). -/
def atSecondUnit : State :=
  { atScan [0x01, 0x08, 0x00, 0x01, 0xFF, 0xFF, 0xFF, 0xFF] with
    off := 23, units := [sampleRecord], duq := [sampleRecord], unitCount := 1 }

theorem inv_atSecondUnit : Inv atSecondUnit := by
  constructor
  case results =>
    intro _
    constructor <;> first
      | exact fun _ => ⟨rfl, rfl⟩
      | (intro r hr
         rw [List.mem_singleton.1 hr]
         exact ⟨rfl, by decide, rfl, rfl⟩)
      | (simp [atSecondUnit, atScan, State.reset, pastHeader]; done)
  all_goals first
    | exact Memory.wf_placeAll _ _ _ List.Pairwise.nil
    | (simp [atSecondUnit, atScan, State.reset, pastHeader, Params.default, Params.wf, Memory.placeAll]; done)

/-- The same scan after the host has written into the frame (R193): its records are whatever they are. -/
def atDisturbed : State := { atSecondUnit with units := [sampleRecord, sampleRecord], disturbed := true }

theorem inv_atDisturbed : Inv atDisturbed := by
  constructor
  case results => exact fun h => nomatch h
  case widths => exact fun _ => ⟨by decide, by decide, by decide, by decide⟩
  all_goals first
    | exact Memory.wf_placeAll _ _ _ List.Pairwise.nil
    | (simp [atDisturbed, atSecondUnit, atScan, State.reset, pastHeader, Params.default, Params.wf, Memory.placeAll]; done)

/-! ## Witnesses: concrete inputs that meet all the hypotheses of a statement, clause by clause -/

theorem witness_DecodeOfEncodeIsIdentity : (Instr.duDflt 1 1 0x0101).wellFormed = true := by decide

theorem witness_UnitHeadersHaveOneMeaning :
    decodeUnit [0x01, 0x08, 0x00, 0x01, 0xFF] = .ok (.duInt 0x01 0x08, [0xFF]) := by rfl

theorem witness_StepRunsTheSelectedOperation :
    ((atHeader headerH).pending = [] ∧ (atHeader headerH).phase = .header) ∧
    ((atScan [1, 8, 0, 1]).pending = [] ∧ (atScan [1, 8, 0, 1]).phase = .scan ∧
      4 ≤ (atScan [1, 8, 0, 1]).n - (atScan [1, 8, 0, 1]).off ∧
      decodeUnit (Memory.readBytes (atScan [1, 8, 0, 1]).buf (atScan [1, 8, 0, 1]).off 4) = .ok (.duInt 1 8, [])) ∧
    ((atScan [1, 8, 0]).pending = [] ∧ (atScan [1, 8, 0]).phase = .scan ∧ (atScan [1, 8, 0]).disturbed = false ∧
      (atScan [1, 8, 0]).n - (atScan [1, 8, 0]).off < 4) ∧
    (atTrailer []).phase = .trailer ∧ State.reset.phase = .idle ∧ atDone.phase = .done ∧ atError.phase = .error :=
  ⟨⟨rfl, rfl⟩, ⟨rfl, rfl, by decide, rfl⟩, ⟨rfl, rfl, rfl, by decide⟩, rfl, rfl, rfl, rfl⟩

theorem witness_StepConsumesTheOldestHostEvent :
    ({ atScan [] with pending := [.reset] } : State).pending = .reset :: [] ∧
    (1 : Word32).getLsbD 0 = true ∧ (0xFFFFFFFF : Word32).getLsbD 0 = true ∧
    ({ State.reset with pending := [.write ⟨0, 1⟩] } : State).pending = .write ⟨0, 1⟩ :: [] ∧
    ({ State.reset with pending := [.write ⟨16, 1⟩] } : State).pending = .write ⟨16, 1⟩ :: [] ∧
    ({ State.reset with pending := [.write ⟨18, 1⟩] } : State).pending = .write ⟨18, 1⟩ :: [] ∧
    ({ atScan [] with pending := [.wait] } : State).pending = .wait :: [] := by decide

theorem witness_DecoderOperationsAreRefusedOutsideTheirPhase :
    (atScan []).phase ≠ .header ∧ (atTrailer []).phase ≠ .scan ∧
    unitForm (.duInt 1 8) = some ⟨1, 8, 0x0001, .int⟩ ∧ (atScan []).phase ≠ .trailer := by decide

theorem witness_HeaderReaderDeliversTheHeader :
    ((atHeader (headerH.take 14)).phase = .header ∧ (atHeader (headerH.take 14)).disturbed = false ∧ (atHeader (headerH.take 14)).n < 15) ∧
    ((atHeader headerH).phase = .header ∧ (atHeader headerH).disturbed = false ∧ 15 ≤ (atHeader headerH).n) := by decide

theorem witness_OnlyTheHeaderReaderRaises :
    ∃ t, exec .hdr (atHeader (headerH.take 14)) = .next t ∧ (atHeader (headerH.take 14)).phase ≠ .error ∧
      t.phase = .error ∧ (atHeader (headerH.take 14)).errCode ≠ .truncatedHeader ∧ t.errCode = .truncatedHeader ∧
      (atHeader (headerH.take 14)).phase = .header ∧ (atHeader (headerH.take 14)).disturbed = false :=
  ⟨_, rfl, by decide, rfl, by decide, rfl, rfl, rfl⟩

theorem witness_HeaderOnlyBufferDecodesToEmptyFrame :
    Inv (atHeader headerH) ∧ (atHeader headerH).phase = .header ∧ (atHeader headerH).n = 15 ∧
      (atHeader headerH).disturbed = false ∧ (atHeader headerH).pending = [] := ⟨inv_atHeader, rfl, rfl, rfl, rfl⟩

/-- Exactly eight bytes left, and under the gate exactly nine. -/
theorem witness_FixedKindUnitsAreAppended :
    (unitForm (.duUint 1 1) = some ⟨1, 1, 0x0008, .uint⟩ ∧ Kind.uint ≠ .text ∧
      (atScan [1, 1, 0, 8, 0x80, 0, 0, 0]).phase = .scan ∧ (atScan [1, 1, 0, 8, 0x80, 0, 0, 0]).disturbed = false ∧
      8 + gateBytes (atScan [1, 1, 0, 8, 0x80, 0, 0, 0]) =
        (atScan [1, 1, 0, 8, 0x80, 0, 0, 0]).n - (atScan [1, 1, 0, 8, 0x80, 0, 0, 0]).off) ∧
    (unitForm (.duInt 1 1) = some ⟨1, 1, 0x0001, .int⟩ ∧ Kind.int ≠ .text ∧
      (atScanMasked [1, 1, 0, 1, 0, 0, 0, 16, 0]).phase = .scan ∧ (atScanMasked [1, 1, 0, 1, 0, 0, 0, 16, 0]).disturbed = false ∧
      8 + gateBytes (atScanMasked [1, 1, 0, 1, 0, 0, 0, 16, 0]) =
        (atScanMasked [1, 1, 0, 1, 0, 0, 0, 16, 0]).n - (atScanMasked [1, 1, 0, 1, 0, 0, 0, 16, 0]).off) := by decide

/-- The empty text (V-T2), and a text that ends the buffer under the gate (P2's second unit). -/
theorem witness_TextUnitsAreAppended :
    ((atScan [1, 1, 0, 2, 0, 0]).phase = .scan ∧ (atScan [1, 1, 0, 2, 0, 0]).disturbed = false ∧ bufNat (atScan [1, 1, 0, 2, 0, 0]) 19 * 256 +
      bufNat (atScan [1, 1, 0, 2, 0, 0]) 20 = 0 ∧
      6 + 0 + gateBytes (atScan [1, 1, 0, 2, 0, 0]) ≤
        (atScan [1, 1, 0, 2, 0, 0]).n - (atScan [1, 1, 0, 2, 0, 0]).off) ∧
    ((atScanMasked [1, 2, 0, 2, 0, 2, 0x4F, 0x4B, 1]).phase = .scan ∧ (atScanMasked [1, 2, 0, 2, 0, 2, 0x4F, 0x4B, 1]).disturbed = false ∧
      bufNat (atScanMasked [1, 2, 0, 2, 0, 2, 0x4F, 0x4B, 1]) 19 * 256 +
        bufNat (atScanMasked [1, 2, 0, 2, 0, 2, 0x4F, 0x4B, 1]) 20 = 2 ∧
      6 + 2 + gateBytes (atScanMasked [1, 2, 0, 2, 0, 2, 0x4F, 0x4B, 1]) ≤
        (atScanMasked [1, 2, 0, 2, 0, 2, 0x4F, 0x4B, 1]).n - (atScanMasked [1, 2, 0, 2, 0, 2, 0x4F, 0x4B, 1]).off ∧
      (Memory.readBytes (atScanMasked [1, 2, 0, 2, 0, 2, 0x4F, 0x4B, 1]).buf 21 2).filter (fun b => b.toNat < 128)
        = [0x4F, 0x4B]) := by decide

/-- 3, 4, 7 and, under the gate, 8 bytes left. -/
theorem witness_FixedKindUnitsStopTheScan :
    (unitForm (.duInt 1 1) = some ⟨1, 1, 0x0001, .int⟩ ∧ Kind.int ≠ .text) ∧
    ((atScan [1, 1, 0]).phase = .scan ∧ (atScan [1, 1, 0]).disturbed = false ∧ (atScan [1, 1, 0]).n - (atScan [1, 1, 0]).off = 3) ∧
    ((atScan [1, 1, 0, 1]).phase = .scan ∧ (atScan [1, 1, 0, 1]).disturbed = false ∧ (atScan [1, 1, 0, 1]).n - (atScan [1, 1, 0, 1]).off = 4) ∧
    ((atScan [1, 1, 0, 1, 0, 0, 0]).phase = .scan ∧ (atScan [1, 1, 0, 1, 0, 0, 0]).disturbed = false ∧
      (atScan [1, 1, 0, 1, 0, 0, 0]).n - (atScan [1, 1, 0, 1, 0, 0, 0]).off = 7) ∧
    ((atScanMasked [1, 1, 0, 1, 0, 0, 0, 16]).phase = .scan ∧ (atScanMasked [1, 1, 0, 1, 0, 0, 0, 16]).disturbed = false ∧
      (atScanMasked [1, 1, 0, 1, 0, 0, 0, 16]).gate = true ∧
      (atScanMasked [1, 1, 0, 1, 0, 0, 0, 16]).n - (atScanMasked [1, 1, 0, 1, 0, 0, 0, 16]).off = 8) := by decide

/-- 3, 4, 5 and 6 bytes left, the last with one text byte declared; under the gate a text that ends the buffer. -/
theorem witness_TextUnitsStopTheScan :
    ((atScan [1, 1, 0]).phase = .scan ∧ (atScan [1, 1, 0]).disturbed = false ∧ (atScan [1, 1, 0]).n - (atScan [1, 1, 0]).off = 3) ∧
    ((atScan [1, 1, 0, 2]).phase = .scan ∧ (atScan [1, 1, 0, 2]).disturbed = false ∧ (atScan [1, 1, 0, 2]).n - (atScan [1, 1, 0, 2]).off = 4) ∧
    ((atScan [1, 1, 0, 2, 5]).phase = .scan ∧ (atScan [1, 1, 0, 2, 5]).disturbed = false ∧ (atScan [1, 1, 0, 2, 5]).n - (atScan [1, 1, 0, 2, 5]).off = 5) ∧
    ((atScan [1, 1, 0, 2, 0, 1]).phase = .scan ∧ (atScan [1, 1, 0, 2, 0, 1]).disturbed = false ∧
      (atScan [1, 1, 0, 2, 0, 1]).n - (atScan [1, 1, 0, 2, 0, 1]).off = 6 ∧
      bufNat (atScan [1, 1, 0, 2, 0, 1]) 19 * 256 + bufNat (atScan [1, 1, 0, 2, 0, 1]) 20 = 1) ∧
    ((atScanMasked [1, 1, 0, 2, 0, 1, 0x4F]).phase = .scan ∧ (atScanMasked [1, 1, 0, 2, 0, 1, 0x4F]).disturbed = false ∧
      (atScanMasked [1, 1, 0, 2, 0, 1, 0x4F]).gate = true ∧
      (atScanMasked [1, 1, 0, 2, 0, 1, 0x4F]).n - (atScanMasked [1, 1, 0, 2, 0, 1, 0x4F]).off = 6 + 1 ∧
      bufNat (atScanMasked [1, 1, 0, 2, 0, 1, 0x4F]) 19 * 256 +
        bufNat (atScanMasked [1, 1, 0, 2, 0, 1, 0x4F]) 20 = 1) := by decide

/-- V-G1, V-G2, V-G4, V-G5: both parameters, and under MASKED both outcomes. -/
theorem witness_ResultCodeGateFollowsTheRawByte :
    ((atScan []).cfg.rcGate = .raw ∧ (atScan []).gate = false) ∧
    ((atScanMasked []).cfg.rcGate = .masked ∧ (atScanMasked []).gate = true) ∧
    (({ atScanMasked [] with functionCode := 0x06 } : State).cfg.rcGate = .masked ∧
      ({ atScanMasked [] with functionCode := 0x06 } : State).gate = false) := by decide

theorem witness_RawGateNeverYieldsResultCodes :
    ∃ t, exec (.duInt 1 1) (atScan [1, 1, 0, 1, 0, 0, 0, 16]) = .next t ∧
      (atScan [1, 1, 0, 1, 0, 0, 0, 16]).cfg.rcGate = .raw ∧ (atScan [1, 1, 0, 1, 0, 0, 0, 16]).disturbed = false ∧
      t.units.length = 1 := ⟨_, rfl, rfl, rfl, rfl⟩

theorem witness_DataUnitOperationsFrame :
    ∃ t, unitForm (.duText 1 1) = some ⟨1, 1, 0x0002, .text⟩ ∧
      (atScan [1, 1, 0, 2, 0, 1, 0x41]).disturbed = false ∧
      exec (.duText 1 1) (atScan [1, 1, 0, 2, 0, 1, 0x41]) = .next t ∧ t.txq = [0x41] := ⟨_, rfl, rfl, rfl, rfl⟩

/-- 0, 1, 2, 3 and 4 bytes left. -/
theorem witness_TrailerReaderReadsWhatRemains :
    ((atTrailer []).phase = .trailer ∧ (atTrailer []).disturbed = false ∧ (atTrailer []).n - (atTrailer []).off = 0) ∧
    ((atTrailer [1]).phase = .trailer ∧ (atTrailer [1]).disturbed = false ∧ (atTrailer [1]).n - (atTrailer [1]).off = 1) ∧
    ((atTrailer [1, 2]).phase = .trailer ∧ (atTrailer [1, 2]).disturbed = false ∧ (atTrailer [1, 2]).n - (atTrailer [1, 2]).off = 2) ∧
    ((atTrailer [1, 2, 3]).phase = .trailer ∧ (atTrailer [1, 2, 3]).disturbed = false ∧ (atTrailer [1, 2, 3]).n - (atTrailer [1, 2, 3]).off = 3) ∧
    ((atTrailer [1, 2, 3, 4]).phase = .trailer ∧ (atTrailer [1, 2, 3, 4]).disturbed = false ∧
      (atTrailer [1, 2, 3, 4]).n - (atTrailer [1, 2, 3, 4]).off = 4) := by decide

/-- A scan stopped with one record of each shape (their spans end at 43) and three bytes left. -/
def atTrailerWithUnits : State :=
  { atScan (List.replicate 31 0x11) with
    off := 43
    units := [sampleRecord, ⟨23, 1, 1, 1, 0x0002, .text, .text [0x4F, 0x4B], 6, none⟩,
      ⟨35, 2, 1, 9, 0x0008, .uint, .unsigned 0xFFFFFFFF, 4, none⟩]
    unitCount := 3, stopCause := .unitHeader, scanOff := 43, phase := .trailer }

theorem inv_atTrailerWithUnits : Inv atTrailerWithUnits := by
  constructor
  case results =>
    intro _
    constructor
    case records =>
      intro r hr
      rcases List.mem_cons.1 hr with rfl | hr
      · exact ⟨rfl, by decide, rfl, rfl⟩
      rcases List.mem_cons.1 hr with rfl | hr
      · exact ⟨rfl, by decide, ⟨by decide, by decide⟩, rfl⟩
      rw [List.mem_singleton.1 hr]
      exact ⟨rfl, by decide, rfl, rfl⟩
    case stopped => exact fun _ => ⟨rfl, 43, ⟨rfl, rfl, rfl, rfl⟩, rfl, by decide⟩
    all_goals first
      | decide
      | (simp [atTrailerWithUnits, atScan, State.reset]; done)
  all_goals first
    | decide
    | exact Memory.wf_placeAll _ _ _ List.Pairwise.nil
    | (simp [atTrailerWithUnits, atScan, State.reset, Params.default]; done)

/-- Records of the three shapes and three bytes left; no record and two bytes, one byte and none left. -/
theorem witness_StoppedScanEndsInAFrame :
    (Inv atTrailerWithUnits ∧ atTrailerWithUnits.phase = .trailer ∧ atTrailerWithUnits.disturbed = false ∧
      atTrailerWithUnits.pending = [] ∧ atTrailerWithUnits.units[0]? = some sampleRecord ∧
      sampleRecord.value = .signed 0xFFFFFFFF ∧ 3 ≤ atTrailerWithUnits.n - atTrailerWithUnits.off) ∧
    (Inv (atTrailer [1, 2]) ∧ (atTrailer [1, 2]).phase = .trailer ∧ (atTrailer [1, 2]).disturbed = false ∧
      (atTrailer [1, 2]).pending = [] ∧ 2 ≤ (atTrailer [1, 2]).n - (atTrailer [1, 2]).off) ∧
    (Inv (atTrailer [1]) ∧ (atTrailer [1]).phase = .trailer ∧ (atTrailer [1]).disturbed = false ∧
      (atTrailer [1]).pending = [] ∧ (atTrailer [1]).n - (atTrailer [1]).off = 1) ∧
    (Inv (atTrailer []) ∧ (atTrailer []).phase = .trailer ∧ (atTrailer []).disturbed = false ∧
      (atTrailer []).pending = []) :=
  ⟨⟨inv_atTrailerWithUnits, rfl, rfl, rfl, rfl, rfl, by decide⟩, ⟨inv_atTrailer _ (by decide), rfl, rfl, rfl, by decide⟩,
    ⟨inv_atTrailer _ (by decide), rfl, rfl, rfl, by decide⟩, inv_atTrailer _ (by decide), rfl, rfl, rfl⟩

theorem witness_StartBeginsADecodeUnlessBusy :
    State.reset.phase = .idle ∧ atDone.phase = .done ∧ atError.phase = .error ∧ (atHeader []).phase = .header ∧
    (atScan []).phase = .scan ∧ (atTrailer []).phase = .trailer := by decide

theorem witness_PopsRemoveTheHead :
    ({ atDone with duq := [sampleRecord] } : State).duq = sampleRecord :: [] ∧ atDone.duq = [] ∧
    ({ atDone with txq := [0x41, 0x42] } : State).txq = 0x41 :: [0x42] ∧ atDone.txq = [] := by decide

/-- BUFLEN; HR0 and HR18 with bit 0 clear; HR17, read only, with bit 0 set; HR19. -/
theorem witness_OtherRegisterWrites :
    (0 ≤ 18 ∧ 0 ≠ 1 ∧ (0xFFFFFFFE : Word32).getLsbD 0 = false) ∧
    (18 ≤ 18 ∧ 18 ≠ 1 ∧ (2 : Word32).getLsbD 0 = false) ∧
    (17 ≤ 18 ∧ 17 ≠ 1 ∧ 17 ≠ 0 ∧ 17 ≠ 16 ∧ 17 ≠ 18 ∧ (1 : Word32).getLsbD 0 = true) ∧ 18 < 19 := by decide

theorem witness_RegisterReadsDisturbNothing : 0 ≤ 18 ∧ 18 ≤ 18 ∧ 18 < 19 := by decide

/-- Every phase, every stop cause, both error codes, a header that is valid and one that is not. -/
theorem witness_StatusRegisterShowsTheFlags :
    State.reset.phase = .idle ∧ (atHeader []).phase = .header ∧ (atScan []).phase = .scan ∧
    (atTrailer []).phase = .trailer ∧ atDone.phase = .done ∧ atError.phase = .error ∧
    atDone.hdrValid = true ∧ atError.hdrValid = false ∧
    State.reset.stopCause = .none ∧ atDone.stopCause = .unitHeader ∧
    ({ atDone with stopCause := .textPrefix } : State).stopCause = .textPrefix ∧
    ({ atDone with stopCause := .textBytes } : State).stopCause = .textBytes ∧
    ({ atDone with stopCause := .fixedValue } : State).stopCause = .fixedValue ∧
    ({ atDone with stopCause := .resultCode } : State).stopCause = .resultCode ∧
    atDone.errCode = .none ∧ atError.errCode = .truncatedHeader := by decide

theorem witness_HeaderRegistersShowTheHeader : (loadHeader (atHeader headerH)).hdrValid = true := by decide

theorem witness_TrailerRegisterShowsValidFields :
    ({ atDone with crcValid := true, endValid := true } : State).phase = .done ∧
    ({ atDone with crcValid := true, endValid := true } : State).crcValid = true ∧
    ({ atDone with crcValid := true, endValid := true } : State).endValid = true := by decide

/-- A head record with a result code, at the greatest offset that fits; empty queues; a head character. -/
theorem witness_QueueWindowsShowTheHeads :
    (({ atDone with duq := [sampleRcRecord] } : State).duq = sampleRcRecord :: [] ∧
      sampleRcRecord.value = .text [0x4F, 0x4B] ∧ [0x4F, 0x4B].length < 2 ^ 16 ∧ sampleRcRecord.kind = .text ∧
      sampleRcRecord.resultCode = some 0x01 ∧ sampleRcRecord.unitOff < 2 ^ atDone.cfg.offw ∧ atDone.cfg.offw ≤ 32) ∧
    (({ sampleRcRecord with unitOff := 2 ^ 32 - 1 } : Record).unitOff < 2 ^ atDone.cfg.offw) ∧
    (({ atDone with duq := [sampleRecord] } : State).duq = sampleRecord :: [] ∧
      sampleRecord.value = .signed 0xFFFFFFFF ∧ sampleRecord.kind = .int) ∧
    ({ sampleRecord with kind := .uint, value := .unsigned 1 } : Record).value = .unsigned 1 ∧
    atDone.duq = [] ∧ ({ atDone with txq := [0x41] } : State).txq = 0x41 :: [] ∧ atDone.txq = [] := by decide

theorem witness_OffsetRegistersShowTheirQuantities :
    Inv (atTrailer [1]) ∧ (atTrailer [1]).stopCause ≠ .none := ⟨inv_atTrailer _ (by decide), by decide⟩

/-- The last offset there is, while not busy; N itself and N - 1 while busy; the first offset there is not. -/
theorem witness_HostPlacesBytes :
    (2 ^ 32 - 1 < 2 ^ atDone.cfg.offw ∧ atDone.busy = false) ∧
    (16 < 2 ^ (atScan [1]).cfg.offw ∧ (atScan [1]).n ≤ 16 ∧ (atScan [1]).busy = true) ∧
    (15 < (atScan [1]).n ∧ 15 < 2 ^ (atScan [1]).cfg.offw ∧ (atScan [1]).busy = true) ∧ 2 ^ atDone.cfg.offw ≤ 2 ^ 32 := by decide

theorem witness_OperationsNeverWriteTheBuffer :
    ∃ t, exec .hdr (atHeader headerH) = .next t ∧ Memory.read t.buf 0 = 0x68 := ⟨_, rfl, rfl⟩

theorem witness_LengthIsLatched :
    (∃ t, exec .start { State.reset with nNext := 59 } = .next t ∧ t.n ≠ State.reset.n) ∧
    (∃ t, exec .reset { State.reset with nNext := 59 } = .next t ∧
      t.nNext ≠ ({ State.reset with nNext := 59 } : State).nNext) := ⟨⟨_, rfl, by decide⟩, ⟨_, rfl, by decide⟩⟩

theorem witness_PhasesFollowTheRunOrder :
    (∃ t, decoderStep (atHeader headerH) = .next t ∧ (atHeader headerH).phase = .header) ∧
    (∃ t, decoderStep (atScan [1]) = .next t ∧ (atScan [1]).phase = .scan) ∧
    (∃ t, decoderStep (atTrailer [1]) = .next t ∧ (atTrailer [1]).phase = .trailer) ∧
    (∃ t, decoderStep { atTrailer [1] with disturbed := true } = .next t ∧ (atTrailer [1]).phase = .trailer) ∧
    (∃ t, decoderStep atDone = .next t ∧ atDone.busy = false) :=
  ⟨⟨_, rfl, rfl⟩, ⟨_, rfl, rfl⟩, ⟨_, rfl, rfl⟩, ⟨_, rfl, rfl⟩, ⟨_, rfl, rfl⟩⟩

theorem witness_OffsetOnlyGrows :
    ∃ t, Inv (atScan [1, 1, 0, 2, 0, 0]) ∧ (atScan [1, 1, 0, 2, 0, 0]).disturbed = false ∧
      decoderStep (atScan [1, 1, 0, 2, 0, 0]) = .next t ∧
      t.units ≠ (atScan [1, 1, 0, 2, 0, 0]).units := ⟨_, inv_atScan _ (by decide), rfl, rfl, by decide⟩

theorem witness_ErrorIsLeftOnlyByStartOrReset :
    atError.phase = .error ∧ (∃ t, hostStep .reset atError = .next t ∧ t.phase ≠ .error) ∧
    (∃ t, hostStep (.write ⟨0, 1⟩) atError = .next t ∧ t.phase ≠ .error) :=
  ⟨rfl, ⟨_, rfl, by decide⟩, ⟨_, rfl, by decide⟩⟩

theorem witness_IrqIsUpWhileADecodeHasEnded :
    (∃ t, atDone.irq = true ∧ exec .start atDone = .next t) ∧ (∃ t, exec .reset atDone = .next t) :=
  ⟨⟨_, rfl, rfl⟩, ⟨_, rfl⟩⟩

theorem witness_EveryStepKeepsTheStateLegal :
    (∃ t, Inv (atHeader headerH) ∧ step (atHeader headerH) = .next t) ∧
    (∃ t, Inv atSecondUnit ∧ step atSecondUnit = .next t) ∧
    (∃ t, Inv (atTrailer [1]) ∧ step (atTrailer [1]) = .next t) ∧
    (∃ t, Inv atDone ∧ step atDone = .next t) ∧ (∃ t, Inv atError ∧ step atError = .next t) ∧
    (∃ t, Inv atDisturbed ∧ step atDisturbed = .next t) :=
  ⟨⟨_, inv_atHeader, rfl⟩, ⟨_, inv_atSecondUnit, rfl⟩, ⟨_, inv_atTrailer _ (by decide), rfl⟩, ⟨_, inv_atDone, rfl⟩,
    ⟨_, inv_atError, rfl⟩, ⟨_, inv_atDisturbed, rfl⟩⟩

theorem witness_UnitCountIsBounded :
    (Inv atSecondUnit ∧ atSecondUnit.disturbed = false ∧ atSecondUnit.unitCount = 1 ∧ sampleRecord ∈ atSecondUnit.units ∧
      sampleRecord ∈ atSecondUnit.duq) ∧
    (Inv (atTrailer [1]) ∧ (atTrailer [1]).disturbed = false ∧ (atTrailer [1]).stopCause ≠ .none) ∧
    (Inv atDisturbed ∧ sampleRecord ∈ atDisturbed.units) :=
  ⟨⟨inv_atSecondUnit, rfl, rfl, by decide, by decide⟩, ⟨inv_atTrailer _ (by decide), rfl, by decide⟩, inv_atDisturbed,
    by decide⟩

theorem witness_EveryDecodeEnds :
    ((atHeader headerH).phase = .header ∧ (atHeader headerH).disturbed = false ∧ (atHeader headerH).pending = []) ∧
    ((atHeader (headerH.take 14)).phase = .header ∧ (atHeader (headerH.take 14)).disturbed = false ∧ (atHeader (headerH.take 14)).pending = [] ∧
      (atHeader (headerH.take 14)).n < 15) := by decide

theorem witness_HostAccessesLeaveTheDecodeAlone :
    (atScan [1]).busy = true ∧
    (∃ t, hostAccess (.write ⟨0, 1⟩) = true ∧ hostStep (.write ⟨0, 1⟩) (atScan [1]) = .next t) ∧
    (∃ t, hostAccess (.read 2) = true ∧ hostStep (.read 2) (atScan [1]) = .next t) ∧
    (∃ t, hostAccess (.place 16 7) = true ∧ (atScan [1]).n ≤ 16 ∧ hostStep (.place 16 7) (atScan [1]) = .next t) :=
  ⟨rfl, ⟨_, rfl, rfl⟩, ⟨_, rfl, rfl⟩, ⟨_, rfl, by decide, rfl⟩⟩

theorem witness_DecoderDependsOnTheDecodeAlone :
    ∃ s', SameDecode (atScan [1, 1, 0, 2, 0, 0]) { atScan [1, 1, 0, 2, 0, 0] with nNext := 9, txq := [0x41] } ∧
      (atScan [1, 1, 0, 2, 0, 0]).disturbed = false ∧ decoderStep (atScan [1, 1, 0, 2, 0, 0]) = .next s' :=
  ⟨_, ⟨rfl, rfl, fun _ _ => rfl, rfl, rfl, rfl, rfl, fun _ => ⟨rfl, rfl, rfl, rfl, rfl, rfl⟩, rfl, fun _ => rfl, rfl,
    fun _ => rfl, rfl, rfl, rfl, rfl, fun _ => rfl⟩, rfl, rfl⟩

/-- An empty buffer decoded from reset, and again after an error while the host reads STATUS. -/
theorem witness_OutcomeIsAFunctionOfTheBuffer :
    ∃ (s1 s2 t1 t2 u2 : State) (k : Nat),
      s1.busy = false ∧ s2.busy = false ∧ s1 ≠ s2 ∧ s1.nNext = s2.nNext ∧ s1.cfg.rcGate = s2.cfg.rcGate ∧
      (∀ a, a < s1.nNext → Memory.read s1.buf a = Memory.read s2.buf a) ∧ s1.pending = [] ∧ .reset ∉ s2.pending ∧
      exec .start s1 = .next t1 ∧ exec .start s2 = .next t2 ∧ Host.Core.run core k t2 = .next u2 ∧
      (∀ j v, j < k → Host.Core.run core j t2 = .next v → Machine.State.busy v = true) ∧ u2.busy = false ∧
      u2.disturbed = false := by
  refine ⟨State.reset, { State.reset with pending := [.read 2], errCode := .truncatedHeader, phase := .error },
    _, _, _, 2, rfl, rfl, by decide, rfl, rfl, fun a h => absurd h (Nat.not_lt_zero a), rfl, by decide, rfl, rfl, rfl,
    ?_, rfl, rfl⟩
  intro j v hj hv
  match j, hj with
  | 0, _ => cases hv; rfl
  | 1, _ => cases hv; rfl

theorem witness_ByteSchedulesRefineTheOperations :
    (∃ t, (atHeader headerH).busy = true ∧ (atHeader headerH).disturbed = false ∧
      decoderStep (atHeader headerH) = .next t) ∧
    (∃ t, (atScan [1, 1, 0, 2, 0, 1, 0x41]).busy = true ∧ (atScan [1, 1, 0, 2, 0, 1, 0x41]).disturbed = false ∧
      decoderStep (atScan [1, 1, 0, 2, 0, 1, 0x41]) = .next t) ∧
    (∃ t, (atTrailer [1, 2, 3]).busy = true ∧ (atTrailer [1, 2, 3]).disturbed = false ∧
      decoderStep (atTrailer [1, 2, 3]) = .next t) :=
  ⟨⟨_, rfl, rfl, rfl⟩, ⟨_, rfl, rfl, rfl⟩, ⟨_, rfl, rfl, rfl⟩⟩

theorem witness_DisturbedOperationsRunOn :
    (atDisturbed.disturbed = true ∧ atDisturbed.phase = .scan ∧
      unitForm (.duInt 1 8) = some ⟨1, 8, 0x0001, .int⟩ ∧ atDisturbed.off ≤ atDisturbed.n) ∧
    (({ atHeader headerH with disturbed := true } : State).disturbed = true ∧ (atHeader headerH).phase = .header) ∧
    (({ atTrailer [] with disturbed := true } : State).disturbed = true ∧ (atTrailer []).phase = .trailer) := by decide

/-- In the scan with a byte left, and at the very end of the frame. -/
theorem witness_DisturbedDecodeEnds :
    (({ atScan [1] with disturbed := true } : State).busy = true ∧ (atScan [1]).off < (atScan [1]).n ∧
      (atScan [1]).pending = []) ∧
    (({ atTrailer [] with disturbed := true } : State).busy = true ∧ (atTrailer []).off = (atTrailer []).n ∧
      (atTrailer []).pending = []) := by decide

theorem witness_OnlyAWriteIntoTheFrameDisturbs :
    (∃ t, hostStep (.place 15 7) (atScan [1]) = .next t ∧ (atScan [1]).disturbed = false ∧ t.disturbed = true) ∧
    (∃ t, hostStep .reset atDisturbed = .next t ∧ atDisturbed.disturbed = true ∧ t.disturbed = false) ∧
    (∃ t, hostStep (.write ⟨0, 1⟩) { atDone with disturbed := true } = .next t ∧
      ({ atDone with disturbed := true } : State).disturbed = true ∧ t.disturbed = false) :=
  ⟨⟨_, rfl, rfl, rfl⟩, ⟨_, rfl, rfl, rfl⟩, ⟨_, rfl, rfl, rfl⟩⟩

end Sys2Proof.Tests
end

/-! The outcome of a decode is a function of the frame, its length and RC_GATE (R2). `SameDecode` is kept by every operation
of the decoder and by every host access that spares the frame; `Follows` packages it with what the host may still do, so
that the decode left alone follows the one the host accesses, step by step. -/

namespace Sys2Proof.Machine

open Sys2Proof.Safety

/-! ## The shared operations keep two states at the same point of the same decode -/

section
variable {s t : State}

/-- Two decodes begin at the same point when their lengths, their bytes below the length and RC_GATE agree (R2, R152). -/
theorem startDecode_sameDecode (hn : s.nNext = t.nNext) (hg : s.cfg.rcGate = t.cfg.rcGate)
    (hb : ∀ a, a < s.nNext → Memory.read s.buf a = Memory.read t.buf a) :
    SameDecode (startDecode s) (startDecode t) where
  rcGate := hg
  n := hn
  buf := hb
  off := rfl
  phase := rfl
  disturbed := rfl
  hdrValid := rfl
  header hp := by simp [pastHeader] at hp
  crcValid := rfl
  crc := nofun
  endValid := rfl
  endFlag := nofun
  units := rfl
  unitCount := rfl
  errCode := rfl
  stopCause := rfl
  scanOff hs := absurd rfl hs

theorem raiseTruncatedHeader_sameDecode (h : SameDecode s t) :
    SameDecode (raiseTruncatedHeader s) (raiseTruncatedHeader t) :=
  { h with phase := rfl, errCode := rfl, header := fun hp => by simp [pastHeader] at hp }

/-- The fifteen header bytes lie below N, so both decodes read the same ones (R90). -/
theorem loadHeader_sameDecode (h : SameDecode s t) (hn : 15 ≤ s.n) : SameDecode (loadHeader s) (loadHeader t) := by
  have hr : ∀ a, a < 15 → Memory.read s.buf a = Memory.read t.buf a := fun a ha => h.buf a (Nat.lt_of_lt_of_le ha hn)
  refine { h with off := rfl, phase := rfl, hdrValid := rfl, header := fun _ => ⟨?_, ?_, ?_, ?_, ?_, ?_⟩ }
  · exact hr 0 (by decide)
  · exact Memory.readBE16_congr (hr 1 (by decide)) (hr 2 (by decide))
  · exact hr 3 (by decide)
  · simp [loadHeader, hr]
  · exact hr 12 (by decide)
  · simp [loadHeader, hr]

theorem stopScan_sameDecode (c : StopCause) (off : Nat) (h : SameDecode s t) (hp : pastHeader s.phase) :
    SameDecode (stopScan c off s) (stopScan c off t) :=
  { h with
    off := rfl, phase := rfl, stopCause := rfl, scanOff := fun _ => rfl, header := fun _ => { h.header hp with } }

theorem appendRecord_sameDecode (r : Record) (off : Nat) (h : SameDecode s t) :
    SameDecode (appendRecord r off s) (appendRecord r off t) :=
  { h with
    off := rfl
    units := congrArg (· ++ [r]) h.units
    unitCount := congrArg (· + 1) h.unitCount
    header := fun hp => { h.header hp with } }

theorem remaining_sameDecode (h : SameDecode s t) : remaining s s.off = remaining t t.off := by
  rw [remaining, remaining, h.n, h.off]

/-- A data-unit operation on the same unit header reads only the frame (R100, R118). -/
theorem scanUnit_sameDecode (k : Kind) (daH daL : Byte) (w : Word16) (h : SameDecode s t) (hp : s.phase = .scan) :
    SameDecode (scanUnit k daH daL w (readerOf k) s) (scanUnit k daH daL w (readerOf k) t) := by
  unfold scanUnit
  rw [← remaining_sameDecode h, ← readerOf_congr k h, ← h.off]
  split
  · exact stopScan_sameDecode _ _ h (.inl hp)
  · split
    · exact stopScan_sameDecode _ _ h (.inl hp)
    · rw [← readResultCode_congr h hp]
      split
      · exact stopScan_sameDecode _ _ h (.inl hp)
      · exact appendRecord_sameDecode _ _ h

/-- The checksum half of TRL (R131): the two bytes it may read lie below N. -/
theorem loadCrc_sameDecode (h : SameDecode s t) : SameDecode (loadCrc s) (loadCrc t) := by
  unfold loadCrc
  rw [← remaining_sameDecode h, ← h.off]
  split
  · rename_i hr
    rw [remaining] at hr
    have hcrc : s.buf.readBE16 s.off = t.buf.readBE16 s.off :=
      Memory.readBE16_congr (h.buf _ (by omega)) (h.buf _ (by omega))
    exact { h with off := rfl, crcValid := rfl, crc := fun _ => hcrc, header := fun hp => { h.header hp with } }
  · exact { h with off := rfl, crcValid := rfl, crc := nofun, header := fun hp => { h.header hp with } }

/-- The end-marker half of TRL (R132): the byte it may read lies below N. -/
theorem loadEndFlag_sameDecode (h : SameDecode s t) : SameDecode (loadEndFlag s) (loadEndFlag t) := by
  unfold loadEndFlag
  rw [← remaining_sameDecode h, ← h.off]
  split
  · rename_i hr
    rw [remaining] at hr
    exact { h with
      off := rfl, endValid := rfl, endFlag := fun _ => h.buf _ (by omega), header := fun hp => { h.header hp with } }
  · exact { h with off := rfl, endValid := rfl, endFlag := nofun, header := fun hp => { h.header hp with } }

theorem setDone_sameDecode (h : SameDecode s t) (hp : pastHeader s.phase) :
    SameDecode { s with phase := .done } { t with phase := .done } :=
  { h with phase := rfl, header := fun _ => { h.header hp with } }

/-! ## The decoder's step -/

/-- HDR as the decoder's step in phase HEADER (R90). -/
theorem decoderStep_of_header (hp : s.phase = .header) (hd : s.disturbed = false) :
    decoderStep s = .next (if s.n < 15 then raiseTruncatedHeader s else loadHeader s) := by
  have he : decoderStep s = execHdr s := by unfold decoderStep; rw [hp]; rfl
  rw [he, execHdr, inPhase_of_phase _ hp hd]

/-- One turn of the scan loop as the decoder's step in phase SCAN (R100). -/
theorem decoderStep_of_scan (hp : s.phase = .scan) (hd : s.disturbed = false) :
    decoderStep s = .next (scanUnit (kindOfType (Memory.readBE16 s.buf (s.off + 2))) (Memory.read s.buf s.off)
      (Memory.read s.buf (s.off + 1)) (Memory.readBE16 s.buf (s.off + 2))
      (readerOf (kindOfType (Memory.readBE16 s.buf (s.off + 2)))) s) := by
  have he : decoderStep s = scannerStep s := by unfold decoderStep; rw [hp]
  rw [he, scannerStep_eq s, inPhase_of_phase _ hp hd]

/-- TRL as the decoder's step in phase TRAILER (R130). -/
theorem decoderStep_of_trailer (hp : s.phase = .trailer) (hd : s.disturbed = false) :
    decoderStep s = .next { loadEndFlag (loadCrc s) with phase := .done } := by
  have he : decoderStep s = execTrl s := by unfold decoderStep; rw [hp]; rfl
  rw [he, execTrl, inPhase_of_phase _ hp hd]

/-- At rest the decoder does nothing (R14). -/
theorem decoderStep_of_not_busy (hb : s.busy = false) : decoderStep s = .next s := by
  unfold decoderStep
  cases hp : s.phase <;> simp [State.busy, Phase.busy, hp] at hb <;> rfl

/-- One turn of the scan loop: with four bytes left both decodes fetch the same unit header, with fewer both stop. -/
theorem scanTurn_sameDecode {s' t' : State} (h : SameDecode s t) (hp : s.phase = .scan) (hd : s.disturbed = false)
    (hs : decoderStep s = .next s') (ht : decoderStep t = .next t') : SameDecode s' t' := by
  rw [decoderStep_of_scan hp hd] at hs
  rw [decoderStep_of_scan (h.phase ▸ hp) (h.disturbed ▸ hd)] at ht
  cases hs
  cases ht
  have hn := h.n
  have hoff := h.off
  by_cases hr : s.n - s.off < 4
  · rw [scanUnit, scanUnit, if_pos (show remaining s s.off < 4 from hr),
      if_pos (show remaining t t.off < 4 from remaining_sameDecode h ▸ hr), ← hoff]
    exact stopScan_sameDecode _ _ h (.inl hp)
  · rw [← hoff, ← h.buf s.off (by omega), ← h.buf (s.off + 1) (by omega),
      ← Memory.readBE16_congr (h.buf (s.off + 2) (by omega)) (h.buf (s.off + 2 + 1) (by omega))]
    exact scanUnit_sameDecode _ _ _ _ h hp

/-- One operation of the decoder depends on the decode alone (R2). -/
theorem decoderStep_sameDecode {s' t' : State} (h : SameDecode s t) (hd : s.disturbed = false)
    (hs : decoderStep s = .next s') (ht : decoderStep t = .next t') : SameDecode s' t' := by
  have hdt : t.disturbed = false := h.disturbed ▸ hd
  have atRest : s.busy = false → SameDecode s' t' := fun hb => by
    rw [decoderStep_of_not_busy hb] at hs
    rw [decoderStep_of_not_busy (show t.phase.busy = false from h.phase ▸ hb)] at ht
    cases hs
    cases ht
    exact h
  cases hp : s.phase with
  | idle => exact atRest (by rw [State.busy, hp]; rfl)
  | done => exact atRest (by rw [State.busy, hp]; rfl)
  | error => exact atRest (by rw [State.busy, hp]; rfl)
  | header =>
    rw [decoderStep_of_header hp hd] at hs
    rw [decoderStep_of_header (h.phase ▸ hp) hdt, ← h.n] at ht
    cases hs
    cases ht
    split
    · exact raiseTruncatedHeader_sameDecode h
    · exact loadHeader_sameDecode h (by omega)
  | scan => exact scanTurn_sameDecode h hp hd hs ht
  | trailer =>
    rw [decoderStep_of_trailer hp hd] at hs
    rw [decoderStep_of_trailer (h.phase ▸ hp) hdt] at ht
    cases hs
    cases ht
    exact setDone_sameDecode (loadEndFlag_sameDecode (loadCrc_sameDecode h)) (.inr (.inl (by simpa using hp)))

/-- What the host can observe is part of the decode (R36, R160). -/
theorem observe_sameDecode (h : SameDecode s t) : s.observe = t.observe := by
  unfold State.observe
  rw [← h.phase]
  cases hp : s.phase with
  | done =>
    obtain ⟨h1, h2, h3, h4, h5, h6⟩ := h.header (.inr (.inr hp))
    have hcrc : (if s.crcValid = true then some s.crc.toNat else none) =
        (if t.crcValid = true then some t.crc.toNat else none) := by
      rw [← h.crcValid]
      split
      · rw [h.crc ‹_›]
      · rfl
    have hend : (if s.endValid = true then some s.endFlag else none) =
        (if t.endValid = true then some t.endFlag else none) := by
      rw [← h.endValid]
      split
      · rw [h.endFlag ‹_›]
      · rfl
    simp only [State.frame, State.direction, h1, h2, h3, h4, h5, h6, h.units, hcrc, hend]
  | _ => rfl

/-- A decode that was begun and is not BUSY is over, and observes something (R157, R160). -/
theorem observe_ne_none (hb : s.busy = false) (hp : s.phase ≠ .idle) : s.observe ≠ none := by
  unfold State.observe
  cases h : s.phase with
  | done => exact nofun
  | error => exact nofun
  | idle => exact absurd h hp
  | header => simp [State.busy, Phase.busy, h] at hb
  | scan => simp [State.busy, Phase.busy, h] at hb
  | trailer => simp [State.busy, Phase.busy, h] at hb

/-- A disturbed decode stays disturbed while the decoder runs it (log 7). -/
theorem decoderStep_keeps_disturbed (hb : s.busy = true) (hd : s.disturbed = true) (h : decoderStep s = .next t) :
    t.disturbed = true := by
  rw [decoderStep_disturbed hb hd] at h
  obtain ⟨f, p, off, he, -⟩ := disturbedOp_cases s hb
  cases h
  rw [he, loseResults_disturbed]

/-- The decoder never goes back to IDLE (R14). -/
theorem decoderStep_phase_ne_idle (hp : s.phase ≠ .idle) (h : decoderStep s = .next t) : t.phase ≠ .idle := by
  rcases decoderStep_eq s with ⟨-, -, -, he⟩ | ⟨-, -, -, he⟩ | ⟨-, -, he⟩ | ⟨-, -, he⟩ | ⟨hb, -, he⟩ | ⟨-, he⟩ <;>
    rw [he] at h <;> cases h
  · exact nofun
  · exact nofun
  · rcases scanUnit_cases _ _ _ _ _ s with
      ⟨-, e⟩ | ⟨-, c, off, -, e⟩ | ⟨-, v, off, -, c, off', -, e⟩ | ⟨-, v, off, -, rc, off', -, e⟩ <;> rw [e]
    · exact nofun
    · exact nofun
    · exact nofun
    · exact hp
  · exact nofun
  · obtain ⟨f, p, off, he, -, -, hcases⟩ := disturbedOp_cases s hb
    rw [he, loseResults_phase]
    rintro rfl
    simp at hcases
  · exact hp

/-! ## Host accesses while a decode runs -/

/-- N_NEXT, the two hardware queues, the read data and the free-value counter are no part of the decode. -/
theorem sameDecode_hostSide (s : State) (nNext : Nat) (duq : List Record) (txq : List Byte) (data : Word32) (draws : Nat) :
    SameDecode s { s with nNext := nNext, duq := duq, txq := txq, hostData := data, draws := draws } :=
  { sameDecode_refl s with header := fun hp => { (sameDecode_refl s).header hp with } }

/-- A byte placed at or beyond N is no part of the decode (R193). -/
theorem place_sameDecode (a : Nat) (b : Byte) (ha : s.n ≤ a) : SameDecode s { s with buf := Memory.place s.buf a b } :=
  { sameDecode_refl s with
    buf := fun a' ha' => (Memory.read_place_other _ _ _ _ (by omega)).symm
    header := fun hp => { (sameDecode_refl s).header hp with } }

/-- While BUSY a register write leaves the decode alone: START is ignored, the pops take from the queues only, BUFLEN is the
next decode's length (R153 to R156). -/
theorem writeStep_sameDecode {w : RegWrite} (hb : s.busy = true) (h : writeStep w s = .next t) : SameDecode s t := by
  rcases writeStep_cases w s with ⟨-, -, he⟩ | ⟨-, -, he⟩ | ⟨-, -, he⟩ | ⟨-, he⟩ <;> rw [he] at h
  · rw [exec, execStart, if_pos hb] at h
    cases h
    exact sameDecode_refl s
  · cases h
    exact sameDecode_hostSide ..
  · cases h
    exact sameDecode_hostSide ..
  · rcases writeReg_cases w s with ⟨-, he'⟩ | ⟨-, he'⟩ | ⟨-, -, he'⟩ <;> rw [he'] at h <;> cases h
    · exact sameDecode_hostSide ..
    · exact sameDecode_refl s

/-- All a host access can do to a decode that runs: it leaves the decode alone, or it writes into the frame and disturbs it,
in its phase (R159, R193). -/
theorem hostStep_busy_cases {e : HostEvent} (hb : s.busy = true) (ha : hostAccess e = true)
    (h : hostStep e s = .next t) :
    SameDecode s t ∨ (∃ a b, e = .place a b ∧ a < s.n) ∧ t.disturbed = true ∧ t.phase = s.phase := by
  cases e with
  | reset => cases ha
  | wait => cases ha
  | write w => exact .inl (writeStep_sameDecode hb h)
  | read reg =>
    obtain ⟨v, -, rfl⟩ := readReg_eq_next h
    exact .inl (sameDecode_hostSide ..)
  | place a b =>
    rw [hostStep] at h
    rcases placeByte_cases a b s with ⟨-, he⟩ | ⟨-, -, hn, he⟩ | ⟨-, hn, he⟩ <;> rw [he] at h <;> cases h
    · exact .inr ⟨⟨a, b, rfl, hn⟩, rfl, rfl⟩
    · exact .inl (place_sameDecode a b (hn.resolve_left (by simp [hb])))

end

/-! ## The simulation -/

/-- The decode in `s`, left alone, follows the decode in `t`, to which the host may still make any access but a reset: the
two are at the same point as long as the host has kept its duty of R193 in `t`. -/
structure Follows (s t : State) : Prop where
  alone : s.pending = []
  noReset : .reset ∉ t.pending
  begun : t.phase ≠ .idle
  same : t.disturbed = false → SameDecode s t

section
variable {s t t' : State}

/-- The decode left alone follows an operation of the decoder by the same operation, until the other is disturbed. -/
theorem Follows.decoderStep (h : Follows s t) (hb : t.busy = true) (ht : decoderStep t = .next t') :
    ∃ j s', Host.Core.run core j s = .next s' ∧ Follows s' t' := by
  have noReset : .reset ∉ t'.pending := decoderStep_pending ht ▸ h.noReset
  have begun := decoderStep_phase_ne_idle h.begun ht
  cases hd : t.disturbed with
  | true =>
    have hd' := decoderStep_keeps_disturbed hb hd ht
    exact ⟨0, s, rfl, h.alone, noReset, begun, fun hf => by rw [hd'] at hf; cases hf⟩
  | false =>
    have hsame := h.same hd
    obtain ⟨s', hs⟩ := decoderStep_next s
    refine ⟨1, s', run_succ ((step_nil h.alone).trans hs) 0, (decoderStep_pending hs).trans h.alone, noReset, begun, ?_⟩
    exact fun _ => decoderStep_sameDecode hsame (hsame.disturbed.trans hd) hs ht

/-- While the other decode runs, the one left alone need not move for a host access. -/
theorem Follows.hostAccess {e : HostEvent} (h : Follows s t) (hb : t.busy = true) (ha : hostAccess e = true)
    (ht : hostStep e t = .next t') : Follows s t' := by
  have noReset : .reset ∉ t'.pending := hostStep_pending ht ▸ h.noReset
  rcases hostStep_busy_cases hb ha ht with hsame | ⟨-, hd, hp⟩
  · exact ⟨h.alone, noReset, hsame.phase ▸ h.begun,
      fun hd => sameDecode_trans (h.same (hsame.disturbed.trans hd)) hsame⟩
  · exact ⟨h.alone, noReset, hp ▸ h.begun, fun hf => by rw [hd] at hf; cases hf⟩

/-- Taking an event off the list changes nothing of the decode. -/
theorem Follows.dropEvent {e : HostEvent} {rest : List HostEvent} (h : Follows s t) (hq : t.pending = e :: rest) :
    Follows s { t with pending := rest } where
  alone := h.alone
  noReset hm := h.noReset (hq ▸ List.mem_cons_of_mem e hm)
  begun := h.begun
  same hd := sameDecode_trans (h.same hd) (sameDecode_pending t rest)

/-- The decode left alone follows every step of the other while that one is BUSY. -/
theorem Follows.step (h : Follows s t) (hb : t.busy = true) (ht : step t = .next t') :
    ∃ j s', Host.Core.run core j s = .next s' ∧ Follows s' t' := by
  cases hq : t.pending with
  | nil => exact h.decoderStep hb ((step_nil hq).symm.trans ht)
  | cons e rest =>
    rw [step_cons hq] at ht
    have hdrop := h.dropEvent hq
    cases e with
    | reset => exact absurd (hq ▸ List.mem_cons_self) h.noReset
    | wait => exact hdrop.decoderStep hb ht
    | write w => exact ⟨0, s, rfl, hdrop.hostAccess hb rfl ht⟩
    | read reg => exact ⟨0, s, rfl, hdrop.hostAccess hb rfl ht⟩
    | place a b => exact ⟨0, s, rfl, hdrop.hostAccess hb rfl ht⟩

end

/-- The decode left alone follows a whole run of the other that is BUSY up to its last state. -/
theorem Follows.run : ∀ (k : Nat) {s t u : State}, Follows s t → Host.Core.run core k t = .next u →
    (∀ j v, j < k → Host.Core.run core j t = .next v → State.busy v = true) →
    ∃ j s', Host.Core.run core j s = .next s' ∧ Follows s' u
  | 0, s, _, _, h, hu, _ => by
    cases hu
    exact ⟨0, s, rfl, h⟩
  | k + 1, s, t, u, h, hu, hbusy => by
    obtain ⟨t', ht, hu'⟩ := run_succ_next hu
    obtain ⟨i, s', hi, h'⟩ := h.step (hbusy 0 t (Nat.succ_pos k) rfl) ht
    obtain ⟨j, u', hj, hf⟩ := Follows.run k h' hu' fun m v hm hv =>
      hbusy (m + 1) v (Nat.succ_lt_succ hm) ((run_succ ht m).trans hv)
    exact ⟨i + j, u', (run_add j hi).trans hj, hf⟩

/-- START outside a decode begins one (R152). -/
theorem exec_start_of_not_busy {s t : State} (hb : s.busy = false) (h : exec .start s = .next t) : t = startDecode s := by
  rw [exec, execStart, hb] at h
  cases h
  rfl

/-- Settles O47, by the simulation `Follows`: it holds right after the two STARTs, every step of the second decode keeps it,
and at the end of an undisturbed second decode it gives the same observation. -/
theorem outcomeIsAFunctionOfTheBuffer : Obligations.OutcomeIsAFunctionOfTheBuffer := by
  intro s1 s2 t1 t2 u2 k hb1 hb2 hn hg hbuf hp1 hp2 ht1 ht2 hrun hbusy hend hdist
  obtain rfl := exec_start_of_not_busy hb1 ht1
  obtain rfl := exec_start_of_not_busy hb2 ht2
  have hstart : Follows (startDecode s1) (startDecode s2) :=
    ⟨hp1, hp2, nofun, fun _ => startDecode_sameDecode hn hg hbuf⟩
  obtain ⟨k1, u1, hrun1, hfinal⟩ := hstart.run k hrun hbusy
  exact ⟨k1, u1, hrun1, observe_sameDecode (hfinal.same hdist), observe_ne_none hend hfinal.begun⟩

end Sys2Proof.Machine

/-! ## Family 30_encoding.md: the operation a unit header selects -/

namespace Sys2Proof

/-- The type-word map on numbers (R63): the operation of a unit header, read off its type word as a sixteen-bit number. -/
theorem unitInstr_eq_by_toNat (h l : Byte) (t : Word16) :
    unitInstr h l t =
      if t.toNat = 1 then .duInt h l
      else if t.toNat = 2 then .duText h l
      else if t.toNat = 4 then .duEnum h l
      else if t.toNat = 8 then .duUint h l
      else .duDflt h l (BitVec.ofNat 16 t.toNat) := by
  rcases kindOfType_cases t with ⟨rfl, -⟩ | ⟨rfl, -⟩ | ⟨rfl, -⟩ | ⟨rfl, -⟩ | ⟨hlisted, hk⟩
  · rfl
  · rfl
  · rfl
  · rfl
  · simp only [listedTypeWord, Bool.or_eq_false_iff, beq_eq_false_iff_ne, ne_eq, ← BitVec.toNat_inj,
      BitVec.reduceToNat] at hlisted
    obtain ⟨⟨⟨h1, h2⟩, h4⟩, h8⟩ := hlisted
    rw [if_neg h1, if_neg h2, if_neg h4, if_neg h8, BitVec.ofNat_toNat, BitVec.setWidth_eq, unitInstr, hk]

/-- Settles O3: decoding four bytes is the type-word map on the number `256 * t1 + t0` of the joined type word. -/
theorem typeWordSelectsTheOperation : Obligations.TypeWordSelectsTheOperation := by
  intro h l t1 t0
  have hdecode : decode (.unit [h, l, t1, t0]) = .ok (unitInstr h l (joinBytes t1 t0)) := rfl
  rw [hdecode, unitInstr_eq_by_toNat, Machine.joinBytes_toNat]

end Sys2Proof

/-! ## Family 40_header_reader.md: HDR, and a buffer that ends right after the header -/

namespace Sys2Proof.Machine

open Sys2Proof.Safety

section
variable {s : State}

/-- HDR in phase HEADER (R90): one test on the buffer length, then one of two updates. -/
theorem exec_hdr_of_header (hp : s.phase = .header) (hd : s.disturbed = false) :
    exec .hdr s = .next (if s.n < 15 then raiseTruncatedHeader s else loadHeader s) :=
  inPhase_of_phase _ hp hd

/-- LENGTH is bytes 1 and 2, big-endian (R16, R44). -/
theorem loadHeader_length_toNat (s : State) : (loadHeader s).length.toNat = bufNat s 1 * 256 + bufNat s 2 :=
  Memory.readBE16_toNat s.buf 1

/-- DIRECTION is bit 7 of byte 12 (R20). -/
theorem loadHeader_direction (s : State) : (loadHeader s).direction = directionOf (Memory.read s.buf 12) := rfl

/-- A scan that finds fewer than four bytes ends there, with cause 1 (R101, R104). -/
theorem decoderStep_of_scan_short (hp : s.phase = .scan) (hd : s.disturbed = false) (hr : remaining s s.off < 4) :
    decoderStep s = .next (stopScan .unitHeader s.off s) := by
  rw [decoderStep_of_scan hp hd, scanUnit, if_pos hr]

/-- With no byte left TRL finds neither the checksum nor the end marker (R131, R132). -/
theorem loadTrailer_of_nothing_left (hr : remaining s s.off = 0) :
    loadEndFlag (loadCrc s) = { s with crcValid := false, endValid := false } := by
  have hcrc : loadCrc s = { s with crcValid := false } := if_neg (by omega)
  rw [hcrc]
  exact if_neg (show ¬ 1 ≤ remaining s s.off by omega)

/-- The state in which the decode of a buffer that ends right after the header is done (R93). -/
def doneAfterHeader (s : State) : State :=
  { stopScan .unitHeader 15 (loadHeader s) with crcValid := false, endValid := false, phase := .done }

/-- Three operations decode a buffer of exactly the header: HDR, a scan turn that stops at once, and TRL with nothing
left. -/
theorem run_headerOnly (hp : s.phase = .header) (hd : s.disturbed = false) (hn : s.n = 15) (hq : s.pending = []) :
    Host.Core.run core 3 s = .next (doneAfterHeader s) := by
  have hdr : step s = .next (loadHeader s) := by
    rw [step_nil hq, decoderStep_of_header hp hd, if_neg (by omega)]
  have hleft : s.n - 15 = 0 := by omega
  have scan : step (loadHeader s) = .next (stopScan .unitHeader 15 (loadHeader s)) := by
    rw [step_nil (by simpa using hq), decoderStep_of_scan_short rfl (by simpa using hd)]
    · rfl
    · simp [remaining, hleft]
  have trl : step (stopScan .unitHeader 15 (loadHeader s)) = .next (doneAfterHeader s) := by
    rw [step_nil (by simpa using hq), decoderStep_of_trailer rfl (by simpa using hd),
      loadTrailer_of_nothing_left (by simp [remaining, hleft])]
    rfl
  rw [run_succ hdr, run_succ scan, run_succ trl]
  rfl

/-- What that state lets the host observe (R93, R160): the header, no trailer, and no data units when none were
recorded before. -/
theorem observe_doneAfterHeader (hu : s.units = []) :
    (doneAfterHeader s).observe =
      some (.frame { (loadHeader s).frame with dataUnits := [], crc := none, endFlag := none }) := by
  have hunits : (doneAfterHeader s).units = [] := hu
  simp only [State.observe, State.frame, hunits, List.map_nil]
  rfl

end

/-- Settles O8, by the length test of HDR; then each header field is read off `loadHeader`. -/
theorem headerReaderDeliversTheHeader : Obligations.HeaderReaderDeliversTheHeader := by
  intro s hp hd
  rw [exec_hdr_of_header hp hd]
  refine ⟨fun hn => by rw [if_pos hn]; rfl, fun hn => ?_⟩
  exact ⟨loadHeader s, by rw [if_neg (by omega)], rfl, loadHeader_length_toNat s, rfl, loadHeader_address s, rfl,
    (loadHeader_direction s).trans (directionOf_eq _), loadHeader_sequence s, rfl⟩

/-- Settles O10, by the run of three operations to `doneAfterHeader`; a legal state in phase HEADER has no records
and no error. -/
theorem headerOnlyBufferDecodesToEmptyFrame : Obligations.HeaderOnlyBufferDecodesToEmptyFrame := by
  intro s hinv hp hd hn hq
  have hunits : s.units = [] := ((hinv.results hd).quiet (by simp [hp])).2
  have herr : s.errCode = .none := by
    cases he : s.errCode with
    | none => rfl
    | truncatedHeader => simp [hinv.error.1 he] at hp
  exact ⟨doneAfterHeader s, _, run_headerOnly hp hd hn hq, observe_doneAfterHeader hunits,
    rfl, loadHeader_length_toNat s, rfl, loadHeader_address s, rfl, loadHeader_direction s, loadHeader_sequence s,
    rfl, rfl, rfl, rfl, herr, rfl⟩

end Sys2Proof.Machine

/-! ## Family 41_data_unit_scanner.md: a unit of a fixed kind is appended -/

namespace Sys2Proof.Machine

open Sys2Proof.Safety

/-! ### The register TABNO holds the table number -/

/-- Each bit of DA_L adds nothing or a term between -7 and 2040, whatever DA_H is, 0 included (R140, R143). -/
theorem tabnoSum_bounds {base : Int} (hlo : -7 ≤ base) (hhi : base ≤ 2033) (daL : Byte) :
    ∀ k : Nat, k ≤ 8 → -7 * (k : Int) ≤ tabnoSum base daL k ∧ tabnoSum base daL k ≤ 2040 * (k : Int)
  | 0, _ => ⟨Int.le_refl 0, Int.le_refl 0⟩
  | k + 1, hk => by
    have ih := tabnoSum_bounds hlo hhi daL k (by omega)
    rw [tabnoSum]
    split <;> omega

/-- TABNO, read as two's complement, is the table number itself (R141). -/
theorem tabnoWord_toInt (daH daL : Byte) : (tabnoWord daH daL).toInt = tabno daH daL := by
  have hH := daH.isLt
  have hbounds := tabnoSum_bounds (base := ((daH.toNat : Int) - 1) * 8 + 1) (by omega) (by omega) daL 8 (Nat.le_refl 8)
  rw [tabnoWord, BitVec.toInt_ofInt, tabno]
  exact Int.bmod_eq_of_le (by omega) (by omega)

/-! ### One data-unit operation with enough bytes left -/

section
variable {s : State}

/-- With the result-code byte there when the gate asks for it, RESULT_CODE_STEP reads it exactly under the gate (R119). -/
theorem readResultCode_of_enough {off : Nat} (h : gateBytes s ≤ remaining s off) :
    readResultCode s off =
      .got (if s.gate = true then some (Memory.read s.buf off) else none) (off + gateBytes s) := by
  rcases readResultCode_cases s off with ⟨hg, hr⟩ | ⟨hg, hshort, -⟩ | ⟨hg, -, hr⟩
  · simp [hr, hg, gateBytes]
  · rw [gateBytes, if_pos hg] at h
    omega
  · simp [hr, hg, gateBytes]

/-- A unit whose header, value and result code are all there is appended (R100, R120), for any value reader. -/
theorem scanUnit_of_got {kind : Kind} {daH daL : Byte} {t : Word16} {readValue : State → Nat → Reading ValueRead}
    {v : ValueRead} {rc : Option Byte} {off off' : Nat} (hheader : 4 ≤ remaining s s.off)
    (hvalue : readValue s (s.off + 4) = .got v off) (hcode : readResultCode s off = .got rc off') :
    scanUnit kind daH daL t readValue s =
      appendRecord ⟨s.off, daH, daL, tabnoWord daH daL, t, kind, v.value, v.declLen, rc⟩ off' s := by
  rw [scanUnit, if_neg (by omega), hvalue]
  simp only [hcode]

/-- A record without characters leaves TXQ as it is (R30). -/
theorem appendRecord_of_chars_eq_nil {r : Record} (off : Nat) (h : r.chars = []) :
    appendRecord r off s =
      { s with off := off, units := s.units ++ [r], duq := s.duq ++ [r], unitCount := s.unitCount + 1 } := by
  rw [appendRecord, h, List.append_nil]

end

/-! ### The fixed kinds -/

/-- How a fixed kind reads its word: unsigned for UINT, signed for the others (R112). TEXT reads no word; its arm is there
only to make the function total. -/
def fixedTag : Kind → Word32 → Value
  | .uint => .unsigned
  | .int => .signed
  | .text => .signed
  | .enum => .signed
  | .dflt => .signed

/-- Every kind but TEXT reads four bytes (R105 to R109). -/
theorem readerOf_of_ne_text {k : Kind} (h : k ≠ .text) : readerOf k = readFixed (fixedTag k) := by
  cases k with
  | text => exact absurd rfl h
  | int => rfl
  | enum => rfl
  | uint => rfl
  | dflt => rfl

/-- `VALUE = W` for UINT, `VALUE = sint32(W)` for the other fixed kinds (R112). -/
theorem denote_fixedTag (k : Kind) (w : Word32) :
    (fixedTag k w).denote = if k = .uint then .unsignedInt w.toNat else .signedInt (sint32 w) := by
  cases k <;> rfl

/-- The record of a fixed-kind unit at OFF: the unit header's fields, and the word behind it (R105 to R109, R112). -/
def fixedRecord (f : UnitForm) (s : State) : Record where
  unitOff := s.off
  daH := f.daH
  daL := f.daL
  tabno := tabnoWord f.daH f.daL
  typeWord := f.typeWord
  kind := f.kind
  value := fixedTag f.kind (Memory.readBE32 s.buf (s.off + 4))
  declLen := 4
  resultCode := if s.gate = true then some (Memory.read s.buf (s.off + 8)) else none

/-- A fixed-kind record contributes no characters (R30). -/
theorem fixedRecord_chars (f : UnitForm) (s : State) : (fixedRecord f s).chars = [] := by
  obtain ⟨-, -, -, k⟩ := f
  cases k <;> rfl

/-- HR13 shows W unchanged, whatever the fixed kind (R112). -/
theorem fixedRecord_valueWord (f : UnitForm) (s : State) :
    (fixedRecord f s).valueWord = Memory.readBE32 s.buf (s.off + 4) := by
  obtain ⟨-, -, -, k⟩ := f
  cases k <;> rfl

/-- A data-unit operation of a fixed kind, with the whole unit there, appends the unit's record (R100, R120). -/
theorem exec_fixedUnit {i : Instr} {f : UnitForm} {s : State} (hf : unitForm i = some f) (hk : f.kind ≠ .text)
    (hp : s.phase = .scan) (hd : s.disturbed = false) (hleft : 8 + gateBytes s ≤ remaining s s.off) :
    exec i s = .next (appendRecord (fixedRecord f s) (s.off + 8 + gateBytes s) s) := by
  rw [remaining] at hleft
  have hvalue : readerOf f.kind s (s.off + 4) =
      .got ⟨fixedTag f.kind (Memory.readBE32 s.buf (s.off + 4)), 4⟩ (s.off + 8) := by
    rw [readerOf_of_ne_text hk]
    exact if_neg (by rw [remaining]; omega)
  have hcode := readResultCode_of_enough (s := s) (off := s.off + 8) (by rw [remaining]; omega)
  rw [exec_unit hf, inPhase_of_phase _ hp hd, scanUnit_of_got (by rw [remaining]; omega) hvalue hcode]
  rfl

/-- Four consecutive bytes as one big-endian number (R44, R68). -/
theorem readBE32_toNat_eq_bytes (s : State) (a : Nat) :
    (Memory.readBE32 s.buf a).toNat =
      bufNat s a * 2 ^ 24 + bufNat s (a + 1) * 2 ^ 16 + bufNat s (a + 2) * 2 ^ 8 + bufNat s (a + 3) := by
  simp only [Memory.readBE32_toNat, Memory.readBE16_toNat, bufNat, Nat.add_assoc a, Nat.reduceAdd]
  omega

/-- Settles O11: the operation appends `fixedRecord`, whose fields are then read off. -/
theorem fixedKindUnitsAreAppended : Obligations.FixedKindUnitsAreAppended := by
  intro i f s w hf hk hp hd hleft hw
  have hword : (Memory.readBE32 s.buf (s.off + 4)).toNat = w := (readBE32_toNat_eq_bytes s (s.off + 4)).trans hw.symm
  refine ⟨fixedRecord f s, ?_, rfl, rfl, rfl, tabnoWord_toInt f.daH f.daL, rfl, rfl, rfl, ?_, ?_, rfl⟩
  · rw [exec_fixedUnit hf hk hp hd hleft, appendRecord_of_chars_eq_nil _ (fixedRecord_chars f s)]
  · rw [fixedRecord, denote_fixedTag, sint32, hword]
  · rw [fixedRecord_valueWord, hword]

end Sys2Proof.Machine

/-! ## Family 43_address_table_decoder.md: the table number -/

namespace Sys2Proof.Machine

/-- The accumulator after the bits below `k` is the sum of their terms, whatever the base is (R140). -/
theorem tabnoSum_eq_sum_range (base : Int) (daL : Byte) (k : Nat) :
    tabnoSum base daL k =
      ((List.range k).map fun i => if daL.toNat.testBit i = true then base + (i : Int) else 0).sum := by
  induction k with
  | zero => rfl
  | succ k ih =>
    rw [tabnoSum, ih, List.range_succ, List.map_append, List.sum_append, List.map_singleton, List.sum_singleton,
      BitVec.testBit_toNat]

/-- With no bit of DA_L set, nothing is added (R142). -/
theorem tabnoSum_zero_daL (base : Int) (k : Nat) : tabnoSum base 0 k = 0 := by
  induction k with
  | zero => rfl
  | succ k ih =>
    rw [tabnoSum, ih, BitVec.ofNat_eq_ofNat, BitVec.getLsbD_zero, if_neg Bool.false_ne_true, Int.add_zero]

/-- Settles O20: `tabno` is the accumulator after all eight bits. -/
theorem tableNumberIsTheSumOverSetBits : Obligations.TableNumberIsTheSumOverSetBits :=
  fun h l => tabnoSum_eq_sum_range (((h.toNat : Int) - 1) * 8 + 1) l 8

/-- Settles O22: no bit set for every DA_H by `tabnoSum_zero_daL`; the four fixed pairs are evaluated. -/
theorem tableNumberExamples : Obligations.TableNumberExamples :=
  ⟨fun h => tabnoSum_zero_daL (((h.toNat : Int) - 1) * 8 + 1) 8, by decide⟩

end Sys2Proof.Machine

/-! ## Family 60_exceptions.md: the one error, and stops that are no errors -/

namespace Sys2Proof.Machine

open Sys2Proof.Safety

/-! ### Only HDR raises -/

/-- Without the host's disturbance an operation is the raising HDR, or it brings about neither the phase ERROR nor the error
code (R165, R166). -/
theorem exec_raises_or_keeps_no_error {i : Instr} {s t : State} (hd : s.disturbed = false) (h : exec i s = .next t) :
    (i = .hdr ∧ s.n < 15) ∨
    ((t.phase = .error → s.phase = .error) ∧ (t.errCode = .truncatedHeader → s.errCode = .truncatedHeader)) := by
  rcases exec_next_cases h with ⟨hi, -, -, hn, -⟩ | ⟨-, -, -, -, rfl⟩ | ⟨-, -, -, c, off, -, -, rfl⟩ |
    ⟨-, -, -, r, off, -, rfl⟩ | ⟨-, -, -, rfl⟩ | ⟨-, hdist, -⟩ | ⟨-, rfl⟩ | ⟨-, -, rfl⟩ | ⟨-, -, rfl⟩ | ⟨-, rfl⟩ | ⟨-, rfl⟩
  case inl => exact .inl ⟨hi, hn⟩
  case inr.inr.inr.inr.inr.inl => rw [hd] at hdist; cases hdist
  all_goals exact .inr (by simp)

/-- Settles O9: first every operation by `exec_raises_or_keeps_no_error`, then HDR by its one test on N. -/
theorem onlyTheHeaderReaderRaises : Obligations.OnlyTheHeaderReaderRaises := by
  refine ⟨fun i s t hd h => ?_, fun s t hp hd h => ?_⟩
  · rcases exec_raises_or_keeps_no_error hd h with hraise | ⟨hphase, hcode⟩
    · exact ⟨fun _ _ => hraise, fun _ _ => hraise⟩
    · exact ⟨fun hs ht => absurd (hphase ht) hs, fun hs ht => absurd (hcode ht) hs⟩
  · rw [exec_hdr_of_header hp hd] at h
    cases h
    by_cases hn : s.n < 15
    · simp [hn]
    · simp [hn]

/-! ### A stopped scan ends in a Frame -/

/-- A legal state outside ERROR has no error code (R32). -/
theorem errCode_eq_none_of_phase_ne_error {s : State} (h : Inv s) (hp : s.phase ≠ .error) : s.errCode = .none := by
  cases he : s.errCode with
  | none => rfl
  | truncatedHeader => exact absurd (h.error.1 he) hp

/-- The Frame's crc after the checksum half of TRL (R131, R160). -/
theorem crc_of_loadCrc (s : State) :
    (if (loadCrc s).crcValid = true then some (loadCrc s).crc.toNat else none) =
      if 2 ≤ s.n - s.off then some (bufNat s s.off * 256 + bufNat s (s.off + 1)) else none := by
  rcases loadCrc_cases s with ⟨hr, he⟩ | ⟨hr, he⟩ <;> rw [remaining] at hr <;> rw [he]
  · simp [hr, Memory.readBE16_toNat]
  · simp [Nat.not_le.2 hr]

/-- The Frame's end_flag after the end-marker half of TRL (R132, R160). -/
theorem endFlag_of_loadEndFlag (s : State) :
    (if (loadEndFlag s).endValid = true then some (loadEndFlag s).endFlag else none) =
      if 1 ≤ s.n - s.off then some (Memory.read s.buf s.off) else none := by
  rcases loadEndFlag_cases s with ⟨hr, he⟩ | ⟨hr, he⟩ <;> rw [remaining] at hr <;> rw [he]
  · simp [hr]
  · simp [Nat.not_le.2 hr]

/-- The Frame's end_flag after both halves of TRL: the end marker stands at OFF when only one byte remains, behind the
checksum when at least three remain (R130, R160). -/
theorem endFlag_of_loadEndFlag_loadCrc (s : State) :
    (if (loadEndFlag (loadCrc s)).endValid = true then some (loadEndFlag (loadCrc s)).endFlag else none) =
      if s.n - s.off = 1 then some (Memory.read s.buf s.off)
      else if 3 ≤ s.n - s.off then some (Memory.read s.buf (s.off + 2)) else none := by
  rw [endFlag_of_loadEndFlag]
  rcases loadCrc_cases s with ⟨hr, he⟩ | ⟨hr, he⟩ <;> rw [remaining] at hr <;> rw [he]
  · have hiff : 1 ≤ s.n - (s.off + 2) ↔ 3 ≤ s.n - s.off := by omega
    have hne : s.n - s.off ≠ 1 := by omega
    simp only [hiff, if_neg hne]
  · have hiff : 1 ≤ s.n - s.off ↔ s.n - s.off = 1 := by omega
    have hlt : ¬ 3 ≤ s.n - s.off := by omega
    simp only [hiff, if_neg hlt]

/-- TRL gives the Frame its two trailer fields and leaves the others (R130, R160). -/
theorem frame_of_loadTrailer (s : State) :
    ({ loadEndFlag (loadCrc s) with phase := .done } : State).frame =
      { s.frame with
        crc := if 2 ≤ s.n - s.off then some (bufNat s s.off * 256 + bufNat s (s.off + 1)) else none
        endFlag := if s.n - s.off = 1 then some (Memory.read s.buf s.off)
          else if 3 ≤ s.n - s.off then some (Memory.read s.buf (s.off + 2)) else none } := by
  rw [← crc_of_loadCrc, ← endFlag_of_loadEndFlag_loadCrc]
  simp [State.frame, State.direction]

/-- The table number of a legal record's DataUnit is the table number of its two DA bytes (R140, R160). -/
theorem tableNumber_dataUnit {gate : Bool} {r : Record} (h : RecordOk gate r) :
    r.dataUnit.tableNumber = tabno r.daH r.daL := by
  rw [Record.dataUnit, h.tabno, tabnoWord_toInt]

/-- Settles O19: the one step is TRL, the Frame is `frame_of_loadTrailer`, and the records and codes it rests on are legal
by `Inv`. -/
theorem stoppedScanEndsInAFrame : Obligations.StoppedScanEndsInAFrame := by
  intro s hinv hp hd hq
  have hstep : step s = .next { loadEndFlag (loadCrc s) with phase := .done } := by
    rw [step_nil hq, decoderStep_of_trailer hp hd]
  have herr : s.errCode = .none := errCode_eq_none_of_phase_ne_error hinv (by simp [hp])
  have hstop : s.stopCause ≠ .none := hinv.stop.2 (.inl hp)
  have hrecords : ∀ r ∈ s.units, RecordOk s.gate r := (hinv.results hd).records
  refine ⟨_, _, hstep, rfl, by simpa using herr, by simp, by simpa using hstop,
    congrArg (some ∘ Observation.frame) (frame_of_loadTrailer s), rfl, rfl, rfl, rfl, rfl, rfl, rfl, List.length_map ..,
    fun k r hk => ?_, rfl, rfl⟩
  have hunit : s.frame.dataUnits[k]? = some r.dataUnit := by
    rw [State.frame, List.getElem?_map, hk, Option.map_some]
  exact ⟨r.dataUnit, hunit, rfl, rfl, tableNumber_dataUnit (hrecords r (List.mem_of_getElem? hk)), rfl, rfl, rfl, rfl,
    fun w hw => congrArg Value.denote hw, fun w hw => congrArg Value.denote hw, fun cs hcs => congrArg Value.denote hcs⟩

end Sys2Proof.Machine

/-! ## Family 30_encoding.md: encoding and decoding give each other back -/

namespace Sys2Proof

/-- Settles O1, operation by operation: the round trips of `Laws.RoundTrip`. -/
theorem decodeOfEncodeIsIdentity : Obligations.DecodeOfEncodeIsIdentity := by
  intro i
  cases i with
  | hdr => exact Laws.RoundTrip.hdr
  | duInt h l => exact Laws.RoundTrip.duInt h l
  | duText h l => exact Laws.RoundTrip.duText h l
  | duEnum h l => exact Laws.RoundTrip.duEnum h l
  | duUint h l => exact Laws.RoundTrip.duUint h l
  | duDflt h l t => exact Laws.RoundTrip.duDflt h l t
  | trl => exact Laws.RoundTrip.trl
  | reset => exact Laws.RoundTrip.reset
  | start => exact Laws.RoundTrip.start
  | duPop => exact Laws.RoundTrip.duPop
  | txPop => exact Laws.RoundTrip.txPop

/-- Only four bytes or more decode as a unit header, and then they are one (R62, R101). -/
theorem eq_encodeUnit_append_of_decodeUnit {bytes rest : List Byte} {i : Instr} (h : decodeUnit bytes = .ok (i, rest)) :
    ∃ daH daL t, bytes = encodeUnit daH daL t ++ rest ∧ i = unitInstr daH daL t := by
  match bytes with
  | daH :: daL :: t1 :: t0 :: tail =>
    cases h
    exact ⟨daH, daL, joinBytes t1 t0, by simp [encodeUnit], rfl⟩
  | [] => cases h
  | [_] => cases h
  | [_, _] => cases h
  | [_, _, _] => cases h

/-- Settles O2: the bytes are the unit header of the fields decoded, which is the operation's encoding. -/
theorem unitHeadersHaveOneMeaning : Obligations.UnitHeadersHaveOneMeaning := by
  intro bytes rest i h
  obtain ⟨daH, daL, t, rfl, rfl⟩ := eq_encodeUnit_append_of_decodeUnit h
  exact ⟨Machine.unitInstr_wellFormed daH daL t, encodeUnit daH daL t, encode_unitInstr daH daL t, rfl, rfl⟩

/-- Settles O4: the six unit headers are evaluated. -/
theorem sampleUnitHeadersDecode : Obligations.SampleUnitHeadersDecode :=
  ⟨rfl, rfl, rfl, rfl, rfl, rfl⟩

end Sys2Proof

/-! ## The whole machine: every step keeps the state legal -/

namespace Sys2Proof.Machine

open Sys2Proof.Safety

/-! ### The trailer -/

section
variable (s : State)

/-- TRL by the number of bytes that remain (R130 to R132). -/
theorem loadTrailer_cases :
    (s.n - s.off = 0 ∧ loadEndFlag (loadCrc s) = { s with crcValid := false, endValid := false }) ∨
    (s.n - s.off = 1 ∧ loadEndFlag (loadCrc s) =
      { s with crcValid := false, endFlag := Memory.read s.buf s.off, endValid := true, off := s.off + 1 }) ∨
    (s.n - s.off = 2 ∧ loadEndFlag (loadCrc s) =
      { s with crc := Memory.readBE16 s.buf s.off, crcValid := true, endValid := false, off := s.off + 2 }) ∨
    (3 ≤ s.n - s.off ∧ loadEndFlag (loadCrc s) =
      { s with
        crc := Memory.readBE16 s.buf s.off, crcValid := true, endFlag := Memory.read s.buf (s.off + 2), endValid := true,
        off := s.off + 3 }) := by
  rcases loadCrc_cases s with ⟨hr, e⟩ | ⟨hr, e⟩ <;> rcases loadEndFlag_cases (loadCrc s) with ⟨hr', e'⟩ | ⟨hr', e'⟩ <;>
    rw [e'] <;> simp only [e, remaining] at hr hr' ⊢
  · exact .inr (.inr (.inr ⟨by omega, trivial⟩))
  · exact .inr (.inr (.inl ⟨by omega, trivial⟩))
  · exact .inr (.inl ⟨by omega, trivial⟩)
  · exact .inl ⟨by omega, trivial⟩

/-- After both halves of TRL, OFF has moved over the trailer fields that are there, which are the ones that fit (R130). -/
theorem loadTrailer_off :
    (loadEndFlag (loadCrc s)).off = s.off + min (s.n - s.off) 3 ∧
      (loadEndFlag (loadCrc s)).off = s.off + (if (loadEndFlag (loadCrc s)).crcValid = true then 2 else 0) +
        (if (loadEndFlag (loadCrc s)).endValid = true then 1 else 0) := by
  rcases loadTrailer_cases s with ⟨hr, he⟩ | ⟨hr, he⟩ | ⟨hr, he⟩ | ⟨hr, he⟩ <;> rw [he] <;> refine ⟨?_, rfl⟩
  all_goals dsimp only; omega

end

/-! ### Legal states of each shape -/

section
variable {s : State}

/-- A state with cleared results is legal in IDLE and in HEADER: the state after RESET, the one after START, the initial
state (R39, R150, R152). -/
theorem inv_clearResults (n nNext : Nat) {p : Phase} (hcfg : s.cfg.wf) (hbuf : Memory.wf s.buf)
    (hnNext : nNext < 2 ^ s.cfg.offw) (hn : n < 2 ^ s.cfg.offw) (hp : p = .idle ∨ p = .header) :
    Inv { clearResults s with n := n, nNext := nNext, phase := p } := by
  have hpast : ¬ pastHeader p := by rcases hp with rfl | rfl <;> simp [pastHeader]
  have herror : p ≠ .error := by rcases hp with rfl | rfl <;> simp
  exact
    { cfg := hcfg
      buf := hbuf
      nNextFits := hnNext
      nFits := hn
      offLe := Nat.zero_le n
      error := ⟨nofun, fun h => absurd h herror⟩
      header := ⟨nofun, fun h => absurd h hpast⟩
      stop := ⟨fun h => absurd rfl h, fun h => absurd (.inr h) hpast⟩
      crc := nofun
      endFlag := nofun
      idle := fun _ => rfl
      results := fun _ =>
        { short := fun h => absurd h herror
          long := fun h => absurd h hpast
          quiet := fun _ => ⟨rfl, rfl⟩
          scanning := fun h => absurd (.inl h) hpast
          stopped := fun h => absurd (.inr (.inl h)) hpast
          finished := fun h => absurd (.inr (.inr h)) hpast
          records := nofun
          count := rfl
          queue := List.suffix_refl _
          text := List.suffix_refl _ }
      widths := nofun }

/-- What a disturbed decode is left with is legal in every phase but IDLE, whatever the free values are (R193, log 7). -/
theorem inv_loseResults (h : Inv s) (f : State) {p : Phase} {off : Nat} (hoff : off ≤ s.n) (hp : p ≠ .idle) :
    Inv (loseResults f p off s) where
  cfg := h.cfg
  buf := h.buf
  nNextFits := h.nNextFits
  nFits := h.nFits
  offLe := hoff
  error := by cases p <;> simp
  header := by cases p <;> simp [pastHeader]
  stop := causeIn_ne_none p f.stopCause
  crc := by cases p <;> simp
  endFlag := by cases p <;> simp
  idle hp' := absurd hp' hp
  results := nofun
  widths _ :=
    { unitCount := Nat.mod_lt _ (Nat.two_pow_pos _)
      scanOff := Nat.mod_lt _ (Nat.two_pow_pos _)
      units := fun _ hr => unitOff_lt_of_mem_fitRecord hr
      duq := fun _ hr => unitOff_lt_of_mem_fitRecord hr }

/-- What the host does beside a decode keeps the state legal: another N_NEXT, records or characters popped, another read
data, fewer events to come (R154 to R156). -/
theorem inv_hostSide (h : Inv s) {nNext : Nat} {duq : List Record} {txq : List Byte} (hnNext : nNext < 2 ^ s.cfg.offw)
    (hduq : duq <:+ s.duq) (htxq : txq <:+ s.txq) (data : Word32) (draws : Nat) (pending : List HostEvent) :
    Inv { s with
      nNext := nNext, duq := duq, txq := txq, hostData := data, draws := draws, pending := pending } :=
  { h with
    nNextFits := hnNext
    results := fun hd =>
      { h.results hd with
        queue := hduq.trans (h.results hd).queue
        text := htxq.trans (h.results hd).text }
    widths := fun hd => { h.widths hd with duq := fun r hr => (h.widths hd).duq r (hduq.subset hr) } }

/-- A byte placed in the buffer keeps it canonical (R191). -/
theorem inv_place (h : Inv s) (a : Nat) (b : Byte) : Inv { s with buf := Memory.place s.buf a b } :=
  { h with
    buf := Memory.wf_place s.buf a b h.buf
    results := fun hd => { h.results hd with }
    widths := fun hd => { h.widths hd with } }

/-! ### The decoder's operations -/

/-- HDR on a buffer too short for a header (R90, R166). -/
theorem inv_raiseTruncatedHeader (h : Inv s) (hp : s.phase = .header) (hd : s.disturbed = false) (hn : s.n < 15) :
    Inv (raiseTruncatedHeader s) := by
  have hhdr : s.hdrValid ≠ true := fun hv => by simpa [pastHeader, hp] using h.header.1 hv
  have hstop : ¬ s.stopCause ≠ .none := fun hv => by simpa [hp] using h.stop.1 hv
  have hres := h.results hd
  have hquiet := hres.quiet (by simp [pastHeader, hp])
  exact
    { h with
      error := ⟨fun _ => rfl, fun _ => rfl⟩
      header := ⟨fun hv => absurd hv hhdr, nofun⟩
      stop := ⟨fun hv => absurd hv hstop, nofun⟩
      crc := fun hv => by simpa [hp] using h.crc hv
      endFlag := fun hv => by simpa [hp] using h.endFlag hv
      idle := nofun
      results := fun _ =>
        { hres with
          short := fun _ => hn
          long := nofun
          quiet := fun _ => hquiet
          scanning := nofun
          stopped := nofun
          finished := nofun }
      widths := fun hd' => by simp [hd] at hd' }

/-- HDR delivers the header to a decode that has no records yet (R90, R121). -/
theorem inv_loadHeader (h : Inv s) (hp : s.phase = .header) (hd : s.disturbed = false) (hn : 15 ≤ s.n) :
    Inv (loadHeader s) := by
  have herr : ¬ s.errCode = .truncatedHeader := fun hv => by simpa [hp] using h.error.1 hv
  have hstop : ¬ s.stopCause ≠ .none := fun hv => by simpa [hp] using h.stop.1 hv
  have hunits : s.units = [] := ((h.results hd).quiet (by simp [pastHeader, hp])).2
  exact
    { h with
      offLe := hn
      error := ⟨fun hv => absurd hv herr, nofun⟩
      header := ⟨fun _ => .inl rfl, fun _ => rfl⟩
      stop := ⟨fun hv => absurd hv hstop, by simp⟩
      crc := fun hv => by simpa [hp] using h.crc hv
      endFlag := fun hv => by simpa [hp] using h.endFlag hv
      idle := nofun
      results := fun _ =>
        { h.results hd with
          short := nofun
          long := fun _ => hn
          quiet := fun hq => absurd (.inl rfl) hq
          scanning := fun _ => hunits ▸ rfl
          stopped := nofun
          finished := nofun
          records := fun r hr => by simp [hunits] at hr }
      widths := fun hd' => by simp [hd] at hd' }

/-- A stop leaves the scan where the table of stops says (R104, R123). -/
theorem inv_stopScan (h : Inv s) (hp : s.phase = .scan) (hd : s.disturbed = false) {c : StopCause} {off : Nat}
    (hc : c ≠ .none) (hs : stoppedAt c s.off off s.n) (hoff : off ≤ s.n) : Inv (stopScan c off s) := by
  have herr : ¬ s.errCode = .truncatedHeader := fun hv => by simpa [hp] using h.error.1 hv
  have hlong := (h.results hd).long (.inl hp)
  have hscan := (h.results hd).scanning hp
  exact
    { h with
      offLe := hoff
      error := ⟨fun hv => absurd hv herr, nofun⟩
      header := ⟨fun _ => .inr (.inl rfl), fun _ => h.header.2 (.inl hp)⟩
      stop := ⟨fun _ => .inl rfl, fun _ => hc⟩
      crc := fun hv => by simpa [hp] using h.crc hv
      endFlag := fun hv => by simpa [hp] using h.endFlag hv
      idle := nofun
      results := fun _ =>
        { h.results hd with
          short := nofun
          long := fun _ => hlong
          quiet := fun hq => absurd (.inr (.inl rfl)) hq
          scanning := nofun
          stopped := fun _ => ⟨rfl, s.off, hscan, hs⟩
          finished := nofun }
      widths := fun hd' => by simp [hd] at hd' }

/-- An appended unit stands right behind the units before it (R120, R121). -/
theorem inv_appendRecord (h : Inv s) (hp : s.phase = .scan) (hd : s.disturbed = false) {r : Record}
    (hu : r.unitOff = s.off) (hr : RecordOk s.gate r) (hoff : s.off + r.span ≤ s.n) :
    Inv (appendRecord r (s.off + r.span) s) := by
  have hres := h.results hd
  exact
    { h with
      offLe := hoff
      results := fun _ =>
        { hres with
          quiet := fun hq => absurd (.inl hp) hq
          scanning := fun _ => adjacent_append s.units r 15 s.off (hres.scanning hp) hu
          stopped := fun hp' => by simp [hp] at hp'
          finished := fun hp' => by simp [hp] at hp'
          records := fun r' hr' => by
            rcases List.mem_append.1 hr' with hr' | hr'
            · exact hres.records r' hr'
            · exact List.mem_singleton.1 hr' ▸ hr
          count := by simp [hres.count]
          queue := (List.suffix_append_inj_of_length_eq rfl).2 ⟨hres.queue, rfl⟩
          text := by
            simpa using (List.suffix_append_inj_of_length_eq rfl).2 ⟨hres.text, rfl⟩ }
      widths := fun hd' => by simp [hd] at hd' }

/-- The decode ends in DONE behind the trailer fields that are there (R130). -/
theorem inv_finish (h : Inv s) (hp : s.phase = .trailer) (hd : s.disturbed = false) (crc : Word16) (endFlag : Byte)
    {crcValid endValid : Bool} {off : Nat}
    (hoff : off = s.off + (if crcValid = true then 2 else 0) + (if endValid = true then 1 else 0)) (hle : off ≤ s.n) :
    Inv { s with
      crc := crc, crcValid := crcValid, endFlag := endFlag, endValid := endValid, off := off, phase := .done } := by
  have herr : ¬ s.errCode = .truncatedHeader := fun hv => by simpa [hp] using h.error.1 hv
  have hres := h.results hd
  obtain ⟨hscanOff, hstopped⟩ := hres.stopped hp
  exact
    { h with
      offLe := hle
      error := ⟨fun hv => absurd hv herr, nofun⟩
      header := ⟨fun _ => .inr (.inr rfl), fun _ => h.header.2 (.inr (.inl hp))⟩
      stop := ⟨fun _ => .inr rfl, fun _ => h.stop.2 (.inl hp)⟩
      crc := fun _ => rfl
      endFlag := fun _ => rfl
      idle := nofun
      results := fun _ =>
        { hres with
          short := nofun
          long := fun _ => hres.long (.inr (.inl hp))
          quiet := fun hq => absurd (.inr (.inr rfl)) hq
          scanning := nofun
          stopped := nofun
          finished := fun _ => ⟨hscanOff ▸ hoff, hstopped⟩ }
      widths := fun hd' => by simp [hd] at hd' }

/-- TRL, whatever of the trailer is there (R130). -/
theorem inv_loadTrailer (h : Inv s) (hp : s.phase = .trailer) (hd : s.disturbed = false) :
    Inv { loadEndFlag (loadCrc s) with phase := .done } := by
  obtain ⟨hmin, hfields⟩ := loadTrailer_off s
  obtain ⟨crc, crcValid, endFlag, endValid, off, he⟩ := trailer_frame s
  have hoff : (loadEndFlag (loadCrc s)).off = off := congrArg State.off he
  have hcrcValid : (loadEndFlag (loadCrc s)).crcValid = crcValid := congrArg State.crcValid he
  have hendValid : (loadEndFlag (loadCrc s)).endValid = endValid := congrArg State.endValid he
  rw [hoff, hcrcValid, hendValid] at hfields
  have hle : off ≤ s.n := by have := h.offLe; omega
  rw [he]
  exact inv_finish h hp hd crc endFlag hfields hle

end

/-! ### One operation, one host event, one step -/

section
variable {s t : State}

theorem decoderStep_inv (h : Inv s) (ht : decoderStep s = .next t) : Inv t := by
  have hle := h.offLe
  rcases decoderStep_eq s with ⟨hp, hd, hn, he⟩ | ⟨hp, hd, hn, he⟩ | ⟨hp, hd, -⟩ | ⟨hp, hd, he⟩ | ⟨hb, -, he⟩ | ⟨-, he⟩
  · cases he.symm.trans ht
    exact inv_raiseTruncatedHeader h hp hd hn
  · cases he.symm.trans ht
    exact inv_loadHeader h hp hd hn
  · rcases decoderStep_scan s hp hd hle with ⟨c, off, he, hc, -, hs, -, hoff⟩ | ⟨r, he, hu, hr, -, hoff⟩
    · cases he.symm.trans ht
      exact inv_stopScan h hp hd hc hs hoff
    · cases he.symm.trans ht
      exact inv_appendRecord h hp hd hu hr hoff
  · cases he.symm.trans ht
    exact inv_loadTrailer h hp hd
  · obtain ⟨f, p, off, hf, -, hoff, hcases⟩ := disturbedOp_cases s hb
    cases he.symm.trans ht
    rw [hf]
    exact inv_loseResults h f (hoff hle) (by rintro rfl; simp at hcases)
  · cases he.symm.trans ht
    exact h

/-- RESET leaves a legal state (R39). -/
theorem inv_resetBlock (h : Inv s) : Inv (resetBlock s) :=
  inv_clearResults (s := forgetRegisters s) 0 0 h.cfg h.buf (Nat.two_pow_pos _) (Nat.two_pow_pos _) (.inl rfl)

/-- START begins in a legal state (R152). -/
theorem inv_startDecode (h : Inv s) : Inv (startDecode s) :=
  inv_clearResults s.nNext s.nNext h.cfg h.buf h.nNextFits h.nNextFits (.inr rfl)

theorem writeStep_inv {w : RegWrite} (h : Inv s) (ht : writeStep w s = .next t) : Inv t := by
  have beside : ∀ {nNext : Nat} {duq : List Record} {txq : List Byte}, nNext < 2 ^ s.cfg.offw → duq <:+ s.duq →
      txq <:+ s.txq → Inv { s with nNext := nNext, duq := duq, txq := txq } :=
    fun hn hr hc => inv_hostSide h hn hr hc s.hostData s.draws s.pending
  rcases writeStep_cases w s with ⟨-, -, he⟩ | ⟨-, -, he⟩ | ⟨-, -, he⟩ | ⟨-, he⟩ <;> rw [he] at ht
  · rw [exec, execStart] at ht
    cases ht
    split
    · exact h
    · exact inv_startDecode h
  · cases ht
    exact beside h.nNextFits (List.tail_suffix _) (List.suffix_refl _)
  · cases ht
    exact beside h.nNextFits (List.suffix_refl _) (List.tail_suffix _)
  · rcases writeReg_cases w s with ⟨-, he'⟩ | ⟨-, he'⟩ | ⟨-, -, he'⟩ <;> rw [he'] at ht <;> cases ht
    · exact beside (Nat.mod_lt _ (Nat.two_pow_pos _)) (List.suffix_refl _) (List.suffix_refl _)
    · exact h

theorem hostStep_inv {e : HostEvent} (h : Inv s) (ht : hostStep e s = .next t) : Inv t := by
  cases e with
  | reset =>
    cases ht
    exact inv_resetBlock h
  | wait => exact decoderStep_inv h ht
  | write w => exact writeStep_inv h ht
  | read reg =>
    obtain ⟨v, -, rfl⟩ := readReg_eq_next ht
    exact inv_hostSide h h.nNextFits (List.suffix_refl _) (List.suffix_refl _) _ _ _
  | place a b =>
    rw [hostStep] at ht
    rcases placeByte_cases a b s with ⟨-, he⟩ | ⟨-, hb, -, he⟩ | ⟨-, -, he⟩ <;> rw [he] at ht <;> cases ht
    · exact inv_loseResults (inv_place h a b) _ h.offLe (fun hp => by simp [State.busy, Phase.busy, hp] at hb)
    · exact inv_place h a b

end

/-- Settles O42: `Inv` holds after one operation of the decoder and after one host event, which are all a step can do. -/
theorem everyStepKeepsTheStateLegal : Obligations.EveryStepKeepsTheStateLegal := by
  intro s t h ht
  cases hq : s.pending with
  | nil => exact decoderStep_inv h ((step_nil hq).symm.trans ht)
  | cons e rest =>
    have hrest : Inv { s with pending := rest } :=
      inv_hostSide h h.nNextFits (List.suffix_refl _) (List.suffix_refl _) _ _ _
    exact hostStep_inv hrest ((step_cons hq).symm.trans ht)

/-- Settles O41: the initial state is one of cleared results in IDLE. -/
theorem initialStateIsLegal : Obligations.InitialStateIsLegal :=
  inv_clearResults (s := State.reset) 0 0 (by decide) List.Pairwise.nil (by decide) (by decide) (.inl rfl)

end Sys2Proof.Machine

/-! ## The whole machine: phases, offsets and counters -/

namespace Sys2Proof.Machine

open Sys2Proof.Safety

section
variable {s t : State}

/-! ### A decode the host disturbed -/

/-- All that is known of one decoder operation from `s` to `t` in a disturbed decode (R193, log 7): it goes on in the run
order or to ERROR, OFF only grows towards N, and nothing but results, OFF and PHASE changes. -/
structure RunsOn (s t : State) : Prop where
  disturbed : t.disturbed = true
  offGrows : s.off ≤ t.off
  offLe : s.off ≤ s.n → t.off ≤ s.n
  fromHeader : s.phase = .header → t.phase = .scan ∨ t.phase = .error
  fromScan : s.phase = .scan → t.phase = .scan ∧ s.off < t.off ∨ t.phase = .trailer ∨ t.phase = .error
  fromTrailer : s.phase = .trailer → t.phase = .done ∨ t.phase = .error
  n : t.n = s.n
  nNext : t.nNext = s.nNext
  buf : t.buf = s.buf
  cfg : t.cfg = s.cfg
  pending : t.pending = s.pending
  hostData : t.hostData = s.hostData

theorem disturbedOp_runsOn (hb : s.busy = true) : RunsOn s (disturbedOp s) := by
  obtain ⟨f, p, off, he, hge, hle, hcases⟩ := disturbedOp_cases s hb
  rw [he]
  exact
    { disturbed := rfl
      offGrows := hge
      offLe := hle
      fromHeader := fun hp => by simpa [hp] using hcases
      fromScan := fun hp => by simpa [hp] using hcases
      fromTrailer := fun hp => by simpa [hp] using hcases
      n := rfl
      nNext := rfl
      buf := rfl
      cfg := rfl
      pending := rfl
      hostData := rfl }

theorem decoderStep_runsOn (hb : s.busy = true) (hd : s.disturbed = true) (h : decoderStep s = .next t) : RunsOn s t := by
  cases (decoderStep_disturbed hb hd).symm.trans h
  exact disturbedOp_runsOn hb

theorem busy_of_phase {p : Phase} {b : Bool} (hp : s.phase = p) (hb : p.busy = b) : s.busy = b := by
  rw [State.busy, hp, hb]

theorem phase_of_busy (hb : s.busy = true) : s.phase = .header ∨ s.phase = .scan ∨ s.phase = .trailer := by
  cases hp : s.phase <;> simp [State.busy, Phase.busy, hp] at hb <;> simp

end

/-- Settles O49: in the phase that enables it each operation is `disturbedOp`, which runs on. -/
theorem disturbedOperationsRunOn : Obligations.DisturbedOperationsRunOn := by
  intro i s hd henabled
  have hrun : s.busy = true ∧ exec i s = .next (disturbedOp s) := by
    rcases henabled with ⟨hp, rfl⟩ | ⟨hp, f, hf⟩ | ⟨hp, rfl⟩
    · exact ⟨busy_of_phase hp rfl, inPhase_of_disturbed _ hp hd⟩
    · exact ⟨busy_of_phase hp rfl, by rw [exec_unit hf, inPhase_of_disturbed _ hp hd]⟩
    · exact ⟨busy_of_phase hp rfl, inPhase_of_disturbed _ hp hd⟩
  obtain ⟨hb, hexec⟩ := hrun
  have h := disturbedOp_runsOn hb
  exact ⟨_, hexec, h.disturbed, h.offGrows, h.offLe, h.fromHeader, h.fromScan, h.fromTrailer, h.n, h.nNext, h.buf, h.cfg,
    h.pending, h.hostData⟩

section
variable {s t : State}

/-! ### Phases and offsets of one decoder operation -/

/-- A data-unit operation stays in the scan or stops it (R100, R104). -/
theorem scanUnit_phase (k : Kind) (daH daL : Byte) (w : Word16) (readValue : State → Nat → Reading ValueRead) (s : State) :
    (scanUnit k daH daL w readValue s).phase = s.phase ∨ (scanUnit k daH daL w readValue s).phase = .trailer := by
  rcases scanUnit_cases k daH daL w readValue s with
    ⟨-, e⟩ | ⟨-, c, off, -, e⟩ | ⟨-, v, off, -, c, off', -, e⟩ | ⟨-, v, off, -, rc, off', -, e⟩ <;> rw [e]
  · exact .inr rfl
  · exact .inr rfl
  · exact .inr rfl
  · exact .inl rfl

end

/-- Settles O37, for a disturbed decode by `RunsOn`, else phase by phase. -/
theorem phasesFollowTheRunOrder : Obligations.PhasesFollowTheRunOrder := by
  intro s t h
  have rest : s.busy = false → t = s := fun hb => by
    cases (decoderStep_of_not_busy hb).symm.trans h
    rfl
  cases hd : s.disturbed with
  | true =>
    have runs := fun {p : Phase} (hp : s.phase = p) (hb : p.busy = true) => decoderStep_runsOn (busy_of_phase hp hb) hd h
    exact ⟨fun hp => (runs hp rfl).fromHeader hp,
      fun hp => ((runs hp rfl).fromScan hp).imp And.left (Or.imp_right fun he => ⟨rfl, he⟩),
      fun hp => ((runs hp rfl).fromTrailer hp).imp_right fun he => ⟨rfl, he⟩, rest⟩
  | false =>
    refine ⟨fun hp => ?_, fun hp => ?_, fun hp => ?_, rest⟩
    · cases (decoderStep_of_header hp hd).symm.trans h
      split
      · exact .inr rfl
      · exact .inl rfl
    · cases (decoderStep_of_scan hp hd).symm.trans h
      exact (scanUnit_phase ..).imp (·.trans hp) .inl
    · cases (decoderStep_of_trailer hp hd).symm.trans h
      exact .inl rfl

/-- Settles O38: OFF goes from 0 to 15 in HDR, moves by the span of a unit or to the stop offset in the scan, and over the
trailer fields that are there in TRL. -/
theorem offsetOnlyGrows : Obligations.OffsetOnlyGrows := by
  intro s t h ht
  have hle := h.offLe
  rcases decoderStep_eq s with ⟨-, -, -, he⟩ | ⟨hp, hd, hn, he⟩ | ⟨hp, hd, -⟩ | ⟨-, hd, he⟩ | ⟨hb, hd, -⟩ | ⟨-, he⟩
  · cases he.symm.trans ht
    exact ⟨Nat.le_refl _, hle, rfl, fun _ hu => absurd rfl hu⟩
  · cases he.symm.trans ht
    have hoff : s.off = 0 := ((h.results hd).quiet (by simp [pastHeader, hp])).1
    exact ⟨hoff ▸ Nat.zero_le _, hn, rfl, fun _ hu => absurd rfl hu⟩
  · rcases decoderStep_scan s hp hd hle with ⟨c, off, he, -, -, -, hge, hoff⟩ | ⟨r, he, -, -, hspan, hoff⟩
    · cases he.symm.trans ht
      exact ⟨hge, hoff, rfl, fun _ hu => absurd rfl hu⟩
    · cases he.symm.trans ht
      exact ⟨Nat.le_add_right _ _, hoff, rfl, fun _ _ => Nat.add_le_add_left hspan _⟩
  · cases he.symm.trans ht
    have hmin := (loadTrailer_off s).1
    simp only [loadEndFlag_n, loadCrc_n, loadEndFlag_units, loadCrc_units]
    exact ⟨by omega, by omega, trivial, fun _ hu => absurd rfl hu⟩
  · have hrun := decoderStep_runsOn hb hd ht
    exact ⟨hrun.offGrows, hrun.n.symm ▸ hrun.offLe hle, hrun.n, fun hf => by simp [hd] at hf⟩
  · cases he.symm.trans ht
    exact ⟨Nat.le_refl _, hle, rfl, fun _ hu => absurd rfl hu⟩

/-! ### Bounds on the counters and offsets -/

section
variable {s : State}

/-- The scan stops at or behind the unit it stopped in (R123). -/
theorem le_of_stoppedAt {c : StopCause} {u scanOff n : Nat} (h : stoppedAt c u scanOff n) : u ≤ scanOff := by
  cases c <;> simp only [stoppedAt] at h <;> omega

/-- A record of adjacent spans begins before they end (R121). -/
theorem unitOff_le_of_adjacent {rs : List Record} {r : Record} {a b : Nat} (h : adjacent a rs b) (hr : r ∈ rs) :
    r.unitOff ≤ b := by
  induction rs generalizing a with
  | nil => cases hr
  | cons x xs ih =>
    obtain ⟨hx, hxs⟩ := h
    rcases List.mem_cons.1 hr with rfl | hr
    · have := adjacent_le xs _ _ hxs
      omega
    · exact ih hxs hr

/-- SCAN_OFF stays within the frame (R13, R33). -/
theorem scanOff_le (h : Inv s) (hd : s.disturbed = false) (hc : s.stopCause ≠ .none) : s.scanOff ≤ s.n := by
  have hle := h.offLe
  rcases h.stop.1 hc with hp | hp
  · have := ((h.results hd).stopped hp).1
    omega
  · have := ((h.results hd).finished hp).1
    omega

/-- The records of a legal undisturbed decode, if there are any, are adjacent from 15 to an offset within the frame
(R121). -/
theorem units_adjacent (h : Inv s) (hd : s.disturbed = false) :
    s.units = [] ∨ ∃ u, adjacent 15 s.units u ∧ u ≤ s.n := by
  have hres := h.results hd
  by_cases hp : pastHeader s.phase
  · refine .inr ?_
    rcases hp with hp | hp | hp
    · exact ⟨s.off, hres.scanning hp, h.offLe⟩
    · obtain ⟨-, u, hadj, hu⟩ := hres.stopped hp
      exact ⟨u, hadj, Nat.le_trans (le_of_stoppedAt hu) (scanOff_le h hd (h.stop.2 (.inl hp)))⟩
    · obtain ⟨-, u, hadj, hu⟩ := hres.finished hp
      exact ⟨u, hadj, Nat.le_trans (le_of_stoppedAt hu) (scanOff_le h hd (h.stop.2 (.inr hp)))⟩
  · exact .inl (hres.quiet hp).2

/-- Every unit has at least six bytes, so at most floor((N - 15) / 6) fit behind the header (R122). -/
theorem unitCount_le (h : Inv s) (hd : s.disturbed = false) : s.unitCount ≤ (s.n - 15) / 6 := by
  rw [(h.results hd).count]
  rcases units_adjacent h hd with hu | ⟨u, hadj, hle⟩
  · simp [hu]
  · have := adjacent_le _ _ _ hadj
    omega

/-- UNIT_OFF of every record, popped or not, lies within the frame (R27, R121). -/
theorem unitOff_le (h : Inv s) (hd : s.disturbed = false) {r : Record} (hr : r ∈ s.units ∨ r ∈ s.duq) :
    r.unitOff ≤ s.n := by
  have hmem : r ∈ s.units := hr.elim id fun hr => (h.results hd).queue.subset hr
  rcases units_adjacent h hd with hu | ⟨u, hadj, hle⟩
  · simp [hu] at hmem
  · exact Nat.le_trans (unitOff_le_of_adjacent hadj hmem) hle

end

/-- Settles O43: in an undisturbed decode everything is bounded by N, which fits OFFW bits; in a disturbed one `Inv` keeps the
widths. -/
theorem unitCountIsBounded : Obligations.UnitCountIsBounded := by
  intro s h
  have hn := h.nFits
  have hoff := h.offLe
  refine ⟨fun hd => ⟨(h.results hd).count, unitCount_le h hd, scanOff_le h hd, fun r => unitOff_le h hd⟩, by omega, ?_⟩
  cases hd : s.disturbed with
  | false =>
    have hcount := unitCount_le h hd
    exact ⟨by omega, fun hc => Nat.lt_of_le_of_lt (scanOff_le h hd hc) hn,
      fun r hr => Nat.lt_of_le_of_lt (unitOff_le h hd hr) hn⟩
  | true =>
    have hw := h.widths hd
    exact ⟨hw.unitCount, fun _ => hw.scanOff, fun r hr => hr.elim (hw.units r) (hw.duq r)⟩

/-! ## Every decode ends -/

/-- Within `k` steps a state with the property is reached. -/
def Reaches (P : State → Prop) (k : Nat) (s : State) : Prop :=
  ∃ j t, j ≤ k ∧ Host.Core.run core j s = .next t ∧ P t

section
variable {P : State → Prop} {s t : State} {k : Nat}

theorem Reaches.now (h : P s) : Reaches P k s := ⟨0, s, Nat.zero_le k, rfl, h⟩

/-- With no host event pending the first step is the decoder's. -/
theorem Reaches.next (hq : s.pending = []) (hs : decoderStep s = .next t) (h : Reaches P k t) : Reaches P (k + 1) s := by
  obtain ⟨j, u, hj, hrun, hu⟩ := h
  exact ⟨j + 1, u, Nat.succ_le_succ hj, (run_succ ((step_nil hq).trans hs) j).trans hrun, hu⟩

theorem Reaches.mono {k' : Nat} (h : Reaches P k s) (hk : k ≤ k') : Reaches P k' s := by
  obtain ⟨j, u, hj, hrun, hu⟩ := h
  exact ⟨j, u, Nat.le_trans hj hk, hrun, hu⟩

/-- A decode that is over observes something (R36, R160). -/
theorem observe_ne_none_of_ended (h : ended s) : s.observe ≠ none := by
  rcases h with hp | hp
  · exact observe_ne_none (busy_of_phase hp rfl) (by simp [hp])
  · exact observe_ne_none (busy_of_phase hp rfl) (by simp [hp])

/-! ### A decode the host left alone -/

theorem trailer_reaches_done (hp : s.phase = .trailer) (hd : s.disturbed = false) (hq : s.pending = []) :
    Reaches (·.phase = .done) 1 s :=
  .next hq (decoderStep_of_trailer hp hd) (.now rfl)

/-- Every turn of the scan stops it or takes at least six bytes (R122), so it ends after at most `m` turns, and TRL
follows. -/
theorem scan_reaches_done : ∀ (m : Nat) {s : State}, s.phase = .scan → s.disturbed = false → s.pending = [] →
    s.off ≤ s.n → (s.n - s.off) / 6 < m → Reaches (·.phase = .done) (m + 1) s
  | 0, _, _, _, _, _, hm => absurd hm (Nat.not_lt_zero _)
  | m + 1, s, hp, hd, hq, hle, hm => by
    rcases decoderStep_scan s hp hd hle with ⟨c, off, he, -⟩ | ⟨r, he, -, -, hspan, hoff⟩
    · have hend : Reaches (·.phase = .done) 1 (stopScan c off s) := trailer_reaches_done rfl hd hq
      exact .next hq he (hend.mono (Nat.succ_le_succ (Nat.zero_le m)))
    · refine .next hq he ?_
      have hm' : (s.n - (s.off + r.span)) / 6 < m := by omega
      exact scan_reaches_done m hp hd hq hoff hm'

end

/-- Settles O44: HDR, then the turns of the scan counted by `scan_reaches_done`, then TRL. -/
theorem everyDecodeEnds : Obligations.EveryDecodeEnds := by
  intro s hp hd hq
  have hstep := decoderStep_of_header hp hd
  by_cases hn : s.n < 15
  · rw [if_pos hn] at hstep
    exact ⟨1, _, by omega, run_succ ((step_nil hq).trans hstep) 0, .inr rfl, nofun, fun _ => hn, fun _ => rfl⟩
  · rw [if_neg hn] at hstep
    have hscan := scan_reaches_done ((s.n - 15) / 6 + 1) (s := loadHeader s) rfl hd hq (Nat.le_of_not_lt hn)
      (Nat.lt_succ_self _)
    obtain ⟨k, t, hk, hrun, ht⟩ := Reaches.next hq hstep hscan
    exact ⟨k, t, hk, hrun, .inl ht, observe_ne_none_of_ended (.inl ht), fun he => by simp [ht] at he, fun h => absurd h hn⟩

/-! ### A decode the host disturbed -/

section
variable {s : State}

theorem disturbed_trailer_ends (hp : s.phase = .trailer) (hd : s.disturbed = true) (hq : s.pending = []) :
    Reaches ended 1 s := by
  obtain ⟨t, ht⟩ := decoderStep_next s
  exact .next hq ht (.now ((decoderStep_runsOn (busy_of_phase hp rfl) hd ht).fromTrailer hp))

/-- The scan goes on only while OFF grows towards N (R193), so it ends after at most `m` turns. -/
theorem disturbed_scan_ends : ∀ (m : Nat) {s : State}, s.phase = .scan → s.disturbed = true → s.pending = [] →
    s.off ≤ s.n → s.n - s.off < m → Reaches ended (m + 1) s
  | 0, _, _, _, _, _, hm => absurd hm (Nat.not_lt_zero _)
  | m + 1, s, hp, hd, hq, hle, hm => by
    obtain ⟨t, ht⟩ := decoderStep_next s
    have hrun := decoderStep_runsOn (busy_of_phase hp rfl) hd ht
    have hn := hrun.n
    have hle' := hrun.offLe hle
    refine .next hq ht ?_
    rcases hrun.fromScan hp with ⟨hp', hlt⟩ | hp' | hp'
    · exact disturbed_scan_ends m hp' hrun.disturbed (hrun.pending.trans hq) (by omega) (by omega)
    · exact (disturbed_trailer_ends hp' hrun.disturbed (hrun.pending.trans hq)).mono (by omega)
    · exact .now (.inr hp')

/-- Any busy phase: HEADER leads to the scan or to ERROR. -/
theorem disturbed_ends (hb : s.busy = true) (hd : s.disturbed = true) (hq : s.pending = []) (hle : s.off ≤ s.n) :
    Reaches ended (s.n - s.off + 3) s := by
  obtain ⟨t, ht⟩ := decoderStep_next s
  have hrun := decoderStep_runsOn hb hd ht
  rcases phase_of_busy hb with hp | hp | hp
  · refine .next hq ht ?_
    have hn := hrun.n
    have hge := hrun.offGrows
    have hle' := hrun.offLe hle
    rcases hrun.fromHeader hp with hp' | hp'
    · exact disturbed_scan_ends (s.n - s.off + 1) hp' hrun.disturbed (hrun.pending.trans hq) (by omega) (by omega)
    · exact .now (.inr hp')
  · exact (disturbed_scan_ends (s.n - s.off + 1) hp hd hq hle (Nat.lt_succ_self _)).mono (by omega)
  · exact (disturbed_trailer_ends hp hd hq).mono (by omega)

end

/-- Settles O50: `disturbed_ends`, and what a decode that is over observes. -/
theorem disturbedDecodeEnds : Obligations.DisturbedDecodeEnds := by
  intro s hb hd hle hq
  obtain ⟨k, t, hk, hrun, ht⟩ := disturbed_ends hb hd hq hle
  exact ⟨k, t, hk, hrun, ht, observe_ne_none_of_ended ht⟩

end Sys2Proof.Machine

/-! ## The byte schedules refine the operations (D5) -/

namespace Sys2Proof.Machine

open Sys2Proof.Safety

/-- Some number of micro-steps leads from one micro-state to the other. -/
def MicroReaches (m m' : Micro) : Prop := ∃ k, microRun k m = m'

section
variable {m m' m'' : Micro}

theorem MicroReaches.refl (m : Micro) : MicroReaches m m := ⟨0, rfl⟩

theorem MicroReaches.trans (h : MicroReaches m m') (h' : MicroReaches m' m'') : MicroReaches m m'' := by
  obtain ⟨j, rfl⟩ := h
  obtain ⟨k, rfl⟩ := h'
  exact ⟨j + k, microRun_add j k m⟩

/-- One row of the header's schedule first. -/
theorem MicroReaches.header (hp : m.st.phase = .header) (h : MicroReaches (microHeader m) m') : MicroReaches m m' := by
  obtain ⟨k, rfl⟩ := h
  exact ⟨k + 1, by rw [microRun, microStep, hp]⟩

/-- One row of the data unit's schedule first. -/
theorem MicroReaches.scan (hp : m.st.phase = .scan) (h : MicroReaches (microUnit m) m') : MicroReaches m m' := by
  obtain ⟨k, rfl⟩ := h
  exact ⟨k + 1, microRun_scan k m hp⟩

/-- One row of the trailer's schedule first. -/
theorem MicroReaches.trailer (hp : m.st.phase = .trailer) (h : MicroReaches (microTrailer m) m') : MicroReaches m m' := by
  obtain ⟨k, rfl⟩ := h
  exact ⟨k + 1, by rw [microRun, microStep, hp]⟩

end

section
variable {s : State} (w : Working)

/-! ### The header's schedule (R91) -/

/-- Eight bytes written one by one fill ADDRESS whatever it held. -/
theorem set_address (v : Vector Byte 8) (a b c d e f g h : Byte) :
    (((((((v.set 0 a).set 1 b).set 2 c).set 3 d).set 4 e).set 5 f).set 6 g).set 7 h = #v[a, b, c, d, e, f, g, h] := by
  apply Vector.ext
  intro i hi
  have hcases : i = 0 ∨ i = 1 ∨ i = 2 ∨ i = 3 ∨ i = 4 ∨ i = 5 ∨ i = 6 ∨ i = 7 := by omega
  rcases hcases with rfl | rfl | rfl | rfl | rfl | rfl | rfl | rfl <;>
    simp

/-- Two bytes written one by one fill SEQUENCE whatever it held. -/
theorem set_sequence (v : Vector Byte 2) (a b : Byte) : (v.set 0 a).set 1 b = #v[a, b] := by
  apply Vector.ext
  intro i hi
  have hcases : i = 0 ∨ i = 1 := by omega
  rcases hcases with rfl | rfl <;> simp

/-- The rows H_AD0 to H_AD7: the eight address bytes. -/
theorem address_schedule (hp : s.phase = .header) :
    MicroReaches ⟨s, .hAd 0, w⟩ ⟨{ s with address := (loadHeader s).address }, .hAfn, w⟩ := by
  refine ⟨8, ?_⟩
  simp only [microRun, microStep, hp, microHeader, Fin.isValue, Fin.reduceEq, reduceIte, Fin.reduceAdd]
  exact congrArg (fun v => (⟨{ s with phase := .header, address := v }, .hAfn, w⟩ : Micro)) (set_address ..)

/-- The rows H_SF to H_SF2: the four bytes before the address. -/
theorem headerFlags_schedule (hp : s.phase = .header) :
    MicroReaches ⟨s, .hSf, w⟩
      ⟨{ s with
        startFlag := (loadHeader s).startFlag, length := (loadHeader s).length, startFlag2 := (loadHeader s).startFlag2 },
        .hAd 0, w⟩ := by
  refine .header hp (.header hp (.header hp (.header hp ⟨0, ?_⟩)))
  simp only [microRun, microHeader, setLow_setHigh, loadHeader, Memory.readBE16]

/-- The rows H_AFN to H_SQ1: the three bytes behind the address, and on to the scan. -/
theorem headerTail_schedule (hp : s.phase = .header) :
    MicroReaches ⟨s, .hAfn, w⟩
      ⟨{ s with
        functionCode := (loadHeader s).functionCode, sequence := (loadHeader s).sequence, hdrValid := true, off := 15,
        phase := .scan }, .uChk, w⟩ := by
  refine .header hp (.header hp (.header hp ⟨0, ?_⟩))
  simp only [microRun, microHeader, set_sequence, loadHeader]

/-- The whole header, on a buffer that holds one. -/
theorem header_schedule (hp : s.phase = .header) (hn : 15 ≤ s.n) :
    MicroReaches ⟨s, .hChk, w⟩ ⟨loadHeader s, .uChk, w⟩ := by
  have hchk : microHeader ⟨s, .hChk, w⟩ = ⟨s, .hSf, w⟩ := if_neg (Nat.not_lt.2 hn)
  refine .header hp ?_
  rw [hchk]
  exact ((headerFlags_schedule w hp).trans (address_schedule w hp)).trans (headerTail_schedule w hp)

/-! ### The trailer's schedule (R135) -/

/-- The rows T_CHK to T_CRC0 are the checksum half of TRL. -/
theorem crc_schedule (hp : s.phase = .trailer) : MicroReaches ⟨s, .tChk, w⟩ ⟨loadCrc s, .tChk2, w⟩ := by
  refine .trailer hp ?_
  rcases loadCrc_cases s with ⟨hr, he⟩ | ⟨hr, he⟩ <;> rw [he]
  · rw [show microTrailer ⟨s, .tChk, w⟩ = ⟨s, .tCrc1, w⟩ from if_pos hr]
    refine .trailer hp (.trailer hp ⟨0, ?_⟩)
    simp only [microRun, microTrailer, advance, setLow_setHigh, Memory.readBE16]
  · exact ⟨0, if_neg (Nat.not_le.2 hr)⟩

/-- The rows T_CHK2 and T_END are the end-marker half of TRL. -/
theorem endFlag_schedule (hp : s.phase = .trailer) :
    MicroReaches ⟨s, .tChk2, w⟩ ⟨{ loadEndFlag s with phase := .done }, .parked, w⟩ := by
  refine .trailer hp ?_
  rcases loadEndFlag_cases s with ⟨hr, he⟩ | ⟨hr, he⟩ <;> rw [he]
  · rw [show microTrailer ⟨s, .tChk2, w⟩ = ⟨s, .tEnd, w⟩ from if_pos hr]
    exact .trailer hp (.refl _)
  · exact ⟨0, if_neg (Nat.not_le.2 hr)⟩

/-- The whole trailer. -/
theorem trailer_schedule (hp : s.phase = .trailer) :
    MicroReaches ⟨s, .tChk, w⟩ ⟨{ loadEndFlag (loadCrc s) with phase := .done }, .parked, w⟩ :=
  (crc_schedule w hp).trans (endFlag_schedule w (by simpa using hp))

/-! ### The data unit's schedule (R124) -/

/-- The working registers after the four bytes of a unit header. -/
def headerWork (s : State) (w : Working) : Working :=
  let t := Memory.readBE16 s.buf (s.off + 2)
  { w with
    unitOff := s.off
    daH := Memory.read s.buf s.off
    daL := Memory.read s.buf (s.off + 1)
    tabno := tabnoWord (Memory.read s.buf s.off) (Memory.read s.buf (s.off + 1))
    typeWord := t
    kind := kindOfType t }

/-- Where the last header byte leads (row U_DT0 of R124): to the first value byte of the kind, if it is there. -/
def valueEntry (m : Micro) : Micro :=
  if m.work.kind = .text then
    if remaining m.st m.st.off < 2 then microStop .textPrefix m else { m with at_ := .uTl1 }
  else if remaining m.st m.st.off < 4 then microStop .fixedValue m
  else { m with at_ := .uV3 }

/-- The rows U_CHK to U_DT0, with a unit header there. -/
theorem unitHeader_schedule (hp : s.phase = .scan) (hr : 4 ≤ remaining s s.off) :
    MicroReaches ⟨s, .uChk, w⟩ (valueEntry ⟨{ s with off := s.off + 4 }, .uV3, headerWork s w⟩) := by
  refine .scan hp ?_
  rw [show microUnit ⟨s, .uChk, w⟩ = ⟨s, .uDah, { w with unitOff := s.off }⟩ from if_neg (Nat.not_lt.2 hr)]
  refine .scan hp (.scan hp (.scan hp (.scan hp ⟨0, ?_⟩)))
  simp only [microRun, microUnit, advance, setLow_setHigh]
  rfl

/-- What the value's rows leave in the working registers: the unit header's fields, and the value that was read. -/
structure HoldsValue (w : Working) (v : ValueRead) (w' : Working) : Prop where
  unitOff : w'.unitOff = w.unitOff
  daH : w'.daH = w.daH
  daL : w'.daL = w.daL
  tabno : w'.tabno = w.tabno
  typeWord : w'.typeWord = w.typeWord
  kind : w'.kind = w.kind
  value : workValue w' = v.value
  declLen : w'.declLen = v.declLen

/-- `U_APP` appends the registers' record with the result code that was read. -/
theorem workRecord_of_holdsValue {v : ValueRead} {w' : Working} (h : HoldsValue w v w') (rc : Option Byte) :
    ({ workRecord w' with resultCode := rc } : Record) =
      ⟨w.unitOff, w.daH, w.daL, w.tabno, w.typeWord, w.kind, v.value, v.declLen, rc⟩ := by
  obtain ⟨h1, h2, h3, h4, h5, h6, h7, h8⟩ := h
  simp only [workRecord, h1, h2, h3, h4, h5, h6, h7, h8]

/-- The rows of a value from offset `u` on: where the kind's reader stops, the scan stops, and what it reads, the working
registers hold when the unit goes on to its result code. -/
def ScheduleReads (s : State) (w : Working) (u : Nat) : Reading ValueRead → Prop
  | .stop c off => ∃ w', MicroReaches (valueEntry ⟨{ s with off := u }, .uV3, w⟩) ⟨stopScan c off s, .tChk, w'⟩
  | .got v off => ∃ w', HoldsValue w v w' ∧
      MicroReaches (valueEntry ⟨{ s with off := u }, .uV3, w⟩) (afterValue { s with off := off } w')

/-- The rows U_V3 to U_V0 read the word of a fixed kind. -/
theorem fixedValue_schedule (hp : s.phase = .scan) (hk : w.kind ≠ .text) (u : Nat) :
    ScheduleReads s w u (readFixed (fixedTag w.kind) s u) := by
  rcases readFixed_cases (fixedTag w.kind) s u with ⟨hr, he⟩ | ⟨hr, he⟩ <;> rw [he]
  · have hentry : valueEntry ⟨{ s with off := u }, .uV3, w⟩ = ⟨stopScan .fixedValue u s, .tChk, w⟩ := by
      rw [valueEntry, if_neg hk]
      exact if_pos hr
    exact ⟨w, hentry ▸ .refl _⟩
  · have hentry : valueEntry ⟨{ s with off := u }, .uV3, w⟩ = ⟨{ s with off := u }, .uV3, w⟩ := by
      rw [valueEntry, if_neg hk]
      exact if_neg (Nat.not_lt.2 hr)
    refine ⟨{ w with w := Memory.readBE32 s.buf u, declLen := 4 }, ⟨rfl, rfl, rfl, rfl, rfl, rfl, ?_, rfl⟩, ?_⟩
    · cases hkind : w.kind with
      | text => exact absurd hkind hk
      | _ => simp only [workValue, fixedTag]
    · rw [hentry]
      refine .scan hp (.scan hp (.scan hp (.scan hp ⟨0, ?_⟩)))
      simp only [microRun, microUnit, advance, shiftIn_four]
      rfl

/-- The working registers after the two bytes of a text's length. -/
def lengthWork (len : Word16) (w : Working) : Working := { w with textLen := len, text := [], declLen := len }

/-- The rows U_TL1 and U_TL0: the text follows if all its bytes are there. -/
theorem textLength_rows (s : State) (u : Nat) :
    microUnit (microUnit ⟨{ s with off := u }, .uTl1, w⟩) =
      if remaining s (u + 2) < (Memory.readBE16 s.buf u).toNat then
        ⟨stopScan .textBytes (u + 2) s, .tChk, lengthWork (Memory.readBE16 s.buf u) w⟩
      else textOrOn (Memory.readBE16 s.buf u).toNat { s with off := u + 2 } (lengthWork (Memory.readBE16 s.buf u) w) := by
  simp only [microUnit, advance, setLow_setHigh]
  rfl

/-- The rows U_TL1, U_TL0 and U_TXT read a text. -/
theorem textValue_schedule (hp : s.phase = .scan) (hk : w.kind = .text) (u : Nat) :
    ScheduleReads s w u (readText s u) := by
  have hentry : 2 ≤ remaining s u → valueEntry ⟨{ s with off := u }, .uV3, w⟩ = ⟨{ s with off := u }, .uTl1, w⟩ := by
    intro hr
    rw [valueEntry, if_pos hk]
    exact if_neg (Nat.not_lt.2 hr)
  rcases readText_cases s u with ⟨hr, he⟩ | ⟨hr, hl, he⟩ | ⟨hr, hl, he⟩ <;> rw [he]
  · have hstop : valueEntry ⟨{ s with off := u }, .uV3, w⟩ = ⟨stopScan .textPrefix u s, .tChk, w⟩ := by
      rw [valueEntry, if_pos hk]
      exact if_pos hr
    exact ⟨w, hstop ▸ .refl _⟩
  · refine ⟨lengthWork (Memory.readBE16 s.buf u) w, ?_⟩
    rw [hentry hr]
    refine .scan hp (.scan hp ?_)
    rw [textLength_rows, if_pos hl]
    exact .refl _
  · refine ⟨{ lengthWork (Memory.readBE16 s.buf u) w with
      text := asciiText (Memory.readBytes s.buf (u + 2) (Memory.readBE16 s.buf u).toNat) },
      ⟨rfl, rfl, rfl, rfl, rfl, rfl, by simp only [workValue, lengthWork, hk], rfl⟩, ?_⟩
    rw [hentry hr]
    refine .scan hp (.scan hp ?_)
    rw [textLength_rows, if_neg (Nat.not_lt.2 hl)]
    exact microRun_text _ { s with off := u + 2 } _ hp

/-- The value's rows read as the kind's reader does. -/
theorem value_schedule (hp : s.phase = .scan) (u : Nat) : ScheduleReads s w u (readerOf w.kind s u) := by
  by_cases hk : w.kind = .text
  · have h := textValue_schedule w hp hk u
    rwa [hk]
  · rw [readerOf_of_ne_text hk]
    exact fixedValue_schedule w hp hk u

/-- The rows U_RC and U_APP where the result code is missing: the scan stops (R119). -/
theorem resultCode_schedule_stop (hp : s.phase = .scan) {c : StopCause} {u off : Nat}
    (h : readResultCode s u = .stop c off) :
    MicroReaches (afterValue { s with off := u } w) ⟨stopScan c off s, .tChk, w⟩ := by
  rcases readResultCode_cases s u with ⟨-, he⟩ | ⟨hg, hr, he⟩ | ⟨-, -, he⟩ <;> cases he.symm.trans h
  rw [show afterValue { s with off := u } w = ⟨{ s with off := u }, .uRc, w⟩ from if_pos hg]
  exact .scan hp ⟨0, if_pos hr⟩

/-- The rows U_RC and U_APP otherwise: the record is appended with the result code of R119. -/
theorem resultCode_schedule_got (hp : s.phase = .scan) {rc : Option Byte} {u off : Nat}
    (h : readResultCode s u = .got rc off) :
    ∃ w', MicroReaches (afterValue { s with off := u } w)
      ⟨appendRecord { workRecord w with resultCode := rc } off s, .uChk, w'⟩ := by
  rcases readResultCode_cases s u with ⟨hg, he⟩ | ⟨-, -, he⟩ | ⟨hg, hr, he⟩ <;> cases he.symm.trans h
  · refine ⟨{ w with rcValid := false }, ?_⟩
    have hg' : ¬ s.gate = true := by simp [hg]
    rw [show afterValue { s with off := u } w = ⟨{ s with off := u }, .uApp, { w with rcValid := false }⟩ from if_neg hg']
    exact .scan hp (.refl _)
  · refine ⟨{ w with resultCode := Memory.read s.buf u, rcValid := true }, ?_⟩
    rw [show afterValue { s with off := u } w = ⟨{ s with off := u }, .uRc, w⟩ from if_pos hg]
    refine .scan hp ?_
    rw [show microUnit ⟨{ s with off := u }, .uRc, w⟩ = ⟨{ s with off := u + 1 }, .uApp,
      { w with resultCode := Memory.read s.buf u, rcValid := true }⟩ from if_neg (Nat.not_lt.2 hr)]
    exact .scan hp (.refl _)

/-- The whole unit, wherever it stops. -/
theorem unit_schedule (hp : s.phase = .scan) {t : State}
    (ht : t = scanUnit (kindOfType (Memory.readBE16 s.buf (s.off + 2))) (Memory.read s.buf s.off)
      (Memory.read s.buf (s.off + 1)) (Memory.readBE16 s.buf (s.off + 2))
      (readerOf (kindOfType (Memory.readBE16 s.buf (s.off + 2)))) s) :
    ∃ w', MicroReaches ⟨s, .uChk, w⟩ ⟨t, microEntry t.phase, w'⟩ := by
  have hvalue := value_schedule (headerWork s w) hp (s.off + 4)
  rw [show (headerWork s w).kind = kindOfType (Memory.readBE16 s.buf (s.off + 2)) from rfl] at hvalue
  rcases scanUnit_cases (kindOfType (Memory.readBE16 s.buf (s.off + 2))) (Memory.read s.buf s.off)
    (Memory.read s.buf (s.off + 1)) (Memory.readBE16 s.buf (s.off + 2))
    (readerOf (kindOfType (Memory.readBE16 s.buf (s.off + 2)))) s with
    ⟨hr, he⟩ | ⟨hr, c, off, hv, he⟩ | ⟨hr, v, off, hv, c, off', hc, he⟩ | ⟨hr, v, off, hv, rc, off', hc, he⟩ <;>
    rw [he] at ht <;> subst ht
  · exact ⟨w, .scan hp ⟨0, if_pos hr⟩⟩
  · rw [hv] at hvalue
    obtain ⟨w', hw⟩ := hvalue
    exact ⟨w', (unitHeader_schedule w hp hr).trans hw⟩
  · rw [hv] at hvalue
    obtain ⟨w', -, hw⟩ := hvalue
    exact ⟨w', ((unitHeader_schedule w hp hr).trans hw).trans (resultCode_schedule_stop w' hp hc)⟩
  · rw [hv] at hvalue
    obtain ⟨w', hholds, hw⟩ := hvalue
    obtain ⟨w'', hw'⟩ := resultCode_schedule_got w' hp hc
    rw [workRecord_of_holdsValue _ hholds] at hw'
    rw [appendRecord_phase, hp]
    exact ⟨w'', ((unitHeader_schedule w hp hr).trans hw).trans hw'⟩

/-- The rows H_CHK and on, both outcomes. -/
theorem hdr_schedule (hp : s.phase = .header) {t : State}
    (ht : t = if s.n < 15 then raiseTruncatedHeader s else loadHeader s) :
    MicroReaches ⟨s, .hChk, w⟩ ⟨t, microEntry t.phase, w⟩ := by
  subst ht
  split
  · rename_i hn
    exact .header hp ⟨0, if_pos hn⟩
  · rename_i hn
    exact header_schedule w hp (Nat.le_of_not_lt hn)

/-- A data-unit operation never leaves the block as it was: it stops the scan or counts a unit. -/
theorem scanUnit_ne (hp : s.phase = .scan) (k : Kind) (daH daL : Byte) (t : Word16)
    (readValue : State → Nat → Reading ValueRead) : scanUnit k daH daL t readValue s ≠ s := by
  have stop : ∀ c off, stopScan c off s ≠ s := fun c off h => by
    have := congrArg State.phase h
    simp [hp] at this
  rcases scanUnit_cases k daH daL t readValue s with
    ⟨-, e⟩ | ⟨-, c, off, -, e⟩ | ⟨-, v, off, -, c, off', -, e⟩ | ⟨-, v, off, -, rc, off', -, e⟩ <;> rw [e]
  · exact stop _ _
  · exact stop _ _
  · exact stop _ _
  · intro h
    have := congrArg State.unitCount h
    simp at this

/-- One operation of a decode that runs never leaves the block as it was. -/
theorem decoderStep_ne {t : State} (hb : s.busy = true) (hd : s.disturbed = false) (h : decoderStep s = .next t) :
    t ≠ s := by
  have ne : t.phase ≠ s.phase → t ≠ s := fun hne he => hne (congrArg State.phase he)
  rcases phase_of_busy hb with hp | hp | hp
  · cases (decoderStep_of_header hp hd).symm.trans h
    refine ne ?_
    split <;> simp [hp]
  · cases (decoderStep_of_scan hp hd).symm.trans h
    exact scanUnit_ne hp _ _ _ _ _
  · cases (decoderStep_of_trailer hp hd).symm.trans h
    exact ne (by simp [hp])

/-- Each phase's schedule, from the phase's entry to the entry of the next phase. -/
theorem schedule_of_decoderStep {t : State} (hb : s.busy = true) (hd : s.disturbed = false) (h : decoderStep s = .next t) :
    ∃ w', MicroReaches ⟨s, microEntry s.phase, w⟩ ⟨t, microEntry t.phase, w'⟩ := by
  rcases phase_of_busy hb with hp | hp | hp
  · cases (decoderStep_of_header hp hd).symm.trans h
    rw [hp]
    exact ⟨w, hdr_schedule w hp rfl⟩
  · cases (decoderStep_of_scan hp hd).symm.trans h
    rw [hp]
    exact unit_schedule w hp rfl
  · cases (decoderStep_of_trailer hp hd).symm.trans h
    rw [hp]
    exact ⟨w, trailer_schedule w hp⟩

end

/-- Settles O48: `schedule_of_decoderStep`; the run takes at least one micro-step because the state has changed. -/
theorem byteSchedulesRefineTheOperations : Obligations.ByteSchedulesRefineTheOperations := by
  intro s t w hb hd h
  obtain ⟨w', k, hk⟩ := schedule_of_decoderStep w hb hd h
  refine ⟨k, w', Nat.pos_of_ne_zero ?_, hk⟩
  rintro rfl
  exact decoderStep_ne hb hd h (congrArg Micro.st hk).symm

end Sys2Proof.Machine

/-! ## Family 41_data_unit_scanner.md: text units, stops, and what every data-unit operation leaves alone -/

namespace Sys2Proof.Machine

open Sys2Proof.Safety

/-! ### Where a data-unit operation stops -/

section
variable {s : State} {kind : Kind} {daH daL : Byte} {t : Word16} {readValue : State → Nat → Reading ValueRead}

theorem scanUnit_of_short (hr : remaining s s.off < 4) :
    scanUnit kind daH daL t readValue s = stopScan .unitHeader s.off s := if_pos hr

/-- The value reader's stop is the operation's (R104). -/
theorem scanUnit_of_value_stop {c : StopCause} {off : Nat} (hheader : 4 ≤ remaining s s.off)
    (hvalue : readValue s (s.off + 4) = .stop c off) :
    scanUnit kind daH daL t readValue s = stopScan c off s := by
  rw [scanUnit, if_neg (by omega), hvalue]

/-- Behind a value that was read, the result code's stop is the operation's (R119). -/
theorem scanUnit_of_resultCode_stop {v : ValueRead} {c : StopCause} {off off' : Nat} (hheader : 4 ≤ remaining s s.off)
    (hvalue : readValue s (s.off + 4) = .got v off) (hcode : readResultCode s off = .stop c off') :
    scanUnit kind daH daL t readValue s = stopScan c off' s := by
  rw [scanUnit, if_neg (by omega), hvalue]
  simp only [hcode]

/-- Under the gate a unit with nothing behind its value has no result code (R119). -/
theorem readResultCode_of_nothing_left {off : Nat} (hg : s.gate = true) (hr : remaining s off = 0) :
    readResultCode s off = .stop .resultCode off := by
  rw [readResultCode, if_pos hg, if_pos (by omega)]

end

/-- Settles O13, through the reader of the fixed kinds: the first check that fails gives the stop. -/
theorem fixedKindUnitsStopTheScan : Obligations.FixedKindUnitsStopTheScan := by
  intro i f s hf hk hp hd
  rw [exec_unit hf, inPhase_of_phase _ hp hd, readerOf_of_ne_text hk]
  refine ⟨fun hr => ?_, fun hheader hr => ?_, fun hg hr => ?_⟩
  · rw [scanUnit_of_short hr]
    rfl
  · have hvalue : readFixed (fixedTag f.kind) s (s.off + 4) = .stop .fixedValue (s.off + 4) :=
      if_pos (by rw [remaining]; omega)
    rw [scanUnit_of_value_stop hheader hvalue]
    rfl
  · have hvalue : readFixed (fixedTag f.kind) s (s.off + 4) =
        .got ⟨fixedTag f.kind (Memory.readBE32 s.buf (s.off + 4)), 4⟩ (s.off + 8) := if_neg (by rw [remaining]; omega)
    have hcode := readResultCode_of_nothing_left (off := s.off + 8) hg (by rw [remaining]; omega)
    rw [scanUnit_of_resultCode_stop (by rw [remaining]; omega) hvalue hcode]
    rfl

/-! ### Text units -/

section
variable {s : State}

/-- The declared length of the text unit at OFF, as a number (R113). -/
theorem textLength_toNat (s : State) :
    (Memory.readBE16 s.buf (s.off + 4)).toNat = bufNat s (s.off + 4) * 256 + bufNat s (s.off + 5) :=
  Memory.readBE16_toNat s.buf (s.off + 4)

/-- A text that is all there is read (R113 to R116). -/
theorem readText_of_enough {off : Nat} (h : 2 + (Memory.readBE16 s.buf off).toNat ≤ remaining s off) :
    readText s off = .got
      ⟨.text (asciiText (Memory.readBytes s.buf (off + 2) (Memory.readBE16 s.buf off).toNat)), Memory.readBE16 s.buf off⟩
      (off + 2 + (Memory.readBE16 s.buf off).toNat) := by
  rcases readText_cases s off with ⟨hr, -⟩ | ⟨-, hr, -⟩ | ⟨-, -, he⟩
  · omega
  · rw [remaining] at h hr
    omega
  · exact he

/-- A text of which some bytes are missing stops the scan behind its length (R114). -/
theorem readText_of_missing_bytes {off : Nat} (h : 2 ≤ remaining s off)
    (hlt : remaining s off < 2 + (Memory.readBE16 s.buf off).toNat) :
    readText s off = .stop .textBytes (off + 2) := by
  rcases readText_cases s off with ⟨hr, -⟩ | ⟨-, -, he⟩ | ⟨-, hr, -⟩
  · omega
  · exact he
  · rw [remaining] at h hlt hr
    omega

/-- The kept characters are the bytes below 0x80 (R115). -/
theorem asciiText_eq_filter (raw : List Byte) : asciiText raw = raw.filter fun b => b.toNat < 128 :=
  congrArg (List.filter · raw) (funext isAscii_eq)

/-- The record of a text unit at OFF (R106, R113 to R116). -/
def textRecord (daH daL : Byte) (s : State) : Record where
  unitOff := s.off
  daH := daH
  daL := daL
  tabno := tabnoWord daH daL
  typeWord := 0x0002
  kind := .text
  value := .text (asciiText
    (Memory.readBytes s.buf (s.off + 6) (Memory.readBE16 s.buf (s.off + 4)).toNat))
  declLen := Memory.readBE16 s.buf (s.off + 4)
  resultCode :=
    if s.gate = true then some (Memory.read s.buf (s.off + 6 + (Memory.readBE16 s.buf (s.off + 4)).toNat)) else none

/-- DU.TEXT in the scan, in terms of the text reader (R106). -/
theorem exec_duText_of_scan (daH daL : Byte) (hp : s.phase = .scan) (hd : s.disturbed = false) :
    exec (.duText daH daL) s = .next (scanUnit .text daH daL 0x0002 readText s) :=
  inPhase_of_phase _ hp hd

/-- DU.TEXT with the whole unit there appends the unit's record (R106, R120). -/
theorem exec_textUnit (daH daL : Byte) (hp : s.phase = .scan) (hd : s.disturbed = false)
    (hleft : 6 + (Memory.readBE16 s.buf (s.off + 4)).toNat + gateBytes s ≤ remaining s s.off) :
    exec (.duText daH daL) s = .next (appendRecord (textRecord daH daL s)
      (s.off + 6 + (Memory.readBE16 s.buf (s.off + 4)).toNat + gateBytes s) s) := by
  rw [remaining] at hleft
  have hvalue := readText_of_enough (s := s) (off := s.off + 4) (by rw [remaining]; omega)
  have hcode := readResultCode_of_enough (s := s) (off := s.off + 4 + 2 + (Memory.readBE16 s.buf (s.off + 4)).toNat)
    (by rw [remaining]; omega)
  rw [exec_duText_of_scan daH daL hp hd, scanUnit_of_got (by rw [remaining]; omega) hvalue hcode]
  rfl

end

/-- Settles O12: the operation appends `textRecord`, whose fields are then read off. -/
theorem textUnitsAreAppended : Obligations.TextUnitsAreAppended := by
  intro h l s len chars hp hd hlen hleft hchars
  rw [← textLength_toNat s] at hlen
  subst hlen
  rw [← asciiText_eq_filter] at hchars
  subst hchars
  exact ⟨textRecord h l s, exec_textUnit h l hp hd hleft, rfl, rfl, rfl, tabnoWord_toInt h l, rfl, rfl, rfl, rfl, rfl, rfl⟩

/-- Settles O14, through the text reader: the first check that fails gives the stop. -/
theorem textUnitsStopTheScan : Obligations.TextUnitsStopTheScan := by
  intro h l s len hp hd hlen
  rw [← textLength_toNat s] at hlen
  subst hlen
  rw [exec_duText_of_scan h l hp hd]
  refine ⟨fun hr => ?_, fun hheader hr => ?_, fun hprefix hr => ?_, fun hg hr => ?_⟩
  · rw [scanUnit_of_short hr]
    rfl
  · have hvalue : readText s (s.off + 4) = .stop .textPrefix (s.off + 4) := if_pos (by rw [remaining]; omega)
    rw [scanUnit_of_value_stop hheader hvalue]
    rfl
  · have hvalue := readText_of_missing_bytes (s := s) (off := s.off + 4) (by rw [remaining]; omega)
      (by rw [remaining]; omega)
    rw [scanUnit_of_value_stop (by rw [remaining]; omega) hvalue]
    rfl
  · have hvalue := readText_of_enough (s := s) (off := s.off + 4) (by rw [remaining]; omega)
    have hcode := readResultCode_of_nothing_left (s := s)
      (off := s.off + 4 + 2 + (Memory.readBE16 s.buf (s.off + 4)).toNat) hg (by rw [remaining]; omega)
    rw [scanUnit_of_resultCode_stop (by rw [remaining]; omega) hvalue hcode]
    rfl

/-! ### The result-code gate -/

section
variable {s : State}

/-- Under RAW the gate is DIRECTION = 1 and the raw byte equal to 6 (R118). -/
theorem gate_iff_of_raw (h : s.cfg.rcGate = .raw) : s.gate = true ↔ s.direction = true ∧ s.functionCode.toNat = 6 := by
  simp [State.gate, resultGate, h, State.direction, ← BitVec.toNat_inj]

/-- A byte equal to 6 has bit 7 clear, so under RAW the gate never holds (R118). -/
theorem gate_eq_false_of_raw (h : s.cfg.rcGate = .raw) : s.gate = false := by
  rw [Bool.eq_false_iff, ne_eq, gate_iff_of_raw h, State.direction, directionOf_eq, decide_eq_true_eq]
  omega

/-- Under MASKED the gate is DIRECTION = 1 and bits 6 to 0 equal to 6 (R118). -/
theorem gate_iff_of_masked (h : s.cfg.rcGate = .masked) :
    s.gate = true ↔ s.direction = true ∧ s.functionCode.toNat % 128 = 6 := by
  simp [State.gate, resultGate, h, State.direction, ← BitVec.toNat_inj]

end

/-- Settles O15; both bits of the MASKED comparison together leave the one byte 0x86. -/
theorem resultCodeGateFollowsTheRawByte : Obligations.ResultCodeGateFollowsTheRawByte := by
  refine fun s => ⟨fun h => ⟨gate_iff_of_raw h, gate_eq_false_of_raw h⟩, fun h => ⟨gate_iff_of_masked h, ?_⟩⟩
  have hlt := s.functionCode.isLt
  rw [gate_iff_of_masked h, State.direction, directionOf_eq, decide_eq_true_eq, ← BitVec.toNat_inj]
  simp only [BitVec.reduceToNat]
  omega

/-- Settles O16: under RAW the gate is closed, and without it no operation stops for a result code or records one. -/
theorem rawGateNeverYieldsResultCodes : Obligations.RawGateNeverYieldsResultCodes := by
  intro i s t hraw hd h
  have hgate := gate_eq_false_of_raw hraw
  rcases exec_next_cases h with ⟨-, -, -, -, rfl⟩ | ⟨-, -, -, -, rfl⟩ | ⟨-, -, -, c, off, -, hc, rfl⟩ |
    ⟨-, -, -, r, off, hr, rfl⟩ | ⟨-, -, -, rfl⟩ | ⟨-, hdist, -⟩ | ⟨-, rfl⟩ | ⟨-, -, rfl⟩ | ⟨-, -, rfl⟩ | ⟨-, rfl⟩ | ⟨-, rfl⟩
  case inr.inr.inl => exact ⟨fun he => absurd he (hc hgate), fun r hr => .inl hr⟩
  case inr.inr.inr.inl =>
    refine ⟨id, fun r' hr' => (List.mem_append.1 hr').imp_right fun hr' => ?_⟩
    rw [List.mem_singleton.1 hr']
    exact hr hgate
  case inr.inr.inr.inr.inr.inl => rw [hd] at hdist; cases hdist
  all_goals simp +contextual

/-- Of all an operation can do, a data-unit operation of an undisturbed decode has the stop and the append only. -/
theorem exec_dataUnit_cases {i : Instr} {f : UnitForm} {s t : State} (hf : unitForm i = some f) (hd : s.disturbed = false)
    (h : exec i s = .next t) :
    (∃ c off, c ≠ .none ∧ t = stopScan c off s) ∨ ∃ r off, t = appendRecord r off s := by
  rcases exec_next_cases h with ⟨rfl, -⟩ | ⟨rfl, -⟩ | ⟨-, -, -, c, off, hc, -, he⟩ | ⟨-, -, -, r, off, -, he⟩ | ⟨rfl, -⟩ |
    ⟨-, hdist, -⟩ | ⟨rfl, -⟩ | ⟨rfl, -⟩ | ⟨rfl, -⟩ | ⟨rfl, -⟩ | ⟨rfl, -⟩
  case inr.inr.inl => exact .inl ⟨c, off, hc, he⟩
  case inr.inr.inr.inl => exact .inr ⟨r, off, he⟩
  case inr.inr.inr.inr.inr.inl => rw [hd] at hdist; cases hdist
  all_goals cases hf

/-- Settles O17, by the two outcomes of a data-unit operation. -/
theorem dataUnitOperationsFrame : Obligations.DataUnitOperationsFrame := by
  intro i f s t hf hd h
  rcases exec_dataUnit_cases hf hd h with ⟨c, off, hc, rfl⟩ | ⟨r, off, rfl⟩
  · exact ⟨.inr ⟨hc, rfl⟩, fun a => rfl⟩
  · exact ⟨.inl ⟨r, rfl⟩, fun a => rfl⟩

end Sys2Proof.Machine

/-! ## Family 42_trailer_reader.md: TRL reads what remains -/

namespace Sys2Proof.Machine

open Sys2Proof.Safety

/-- Settles O18, by the four cases of `loadTrailer_cases`. -/
theorem trailerReaderReadsWhatRemains : Obligations.TrailerReaderReadsWhatRemains := by
  intro s hp hd
  refine ⟨_, inPhase_of_phase _ hp hd, rfl, ?_⟩
  rcases loadTrailer_cases s with ⟨hr, he⟩ | ⟨hr, he⟩ | ⟨hr, he⟩ | ⟨hr, he⟩ <;> rw [he]
  · simp [hr]
  · simp [hr]
  · simp [hr, Memory.readBE16_toNat]
  · have hmin : min (s.n - s.off) 3 = 3 := Nat.min_eq_right hr
    rw [hmin]
    exact ⟨⟨fun _ => by omega, fun _ => rfl⟩, fun _ => Memory.readBE16_toNat s.buf s.off, fun h => by omega,
      ⟨fun _ => .inr hr, fun _ => rfl⟩, fun h => by omega, fun _ => rfl, fun h => by omega, rfl, rfl⟩

end Sys2Proof.Machine

/-! ## Family 43_address_table_decoder.md: closed form and range of the table number -/

namespace Sys2Proof.Machine

/-- The accumulator after the bits below `k`: the base once per set bit, and the sum of their indices (R141). -/
theorem tabnoSum_closed_form (base : Int) (daL : Byte) (k : Nat) :
    tabnoSum base daL k =
      ((List.range k).countP daL.toNat.testBit : Int) * base + (((List.range k).filter daL.toNat.testBit).sum : Nat) := by
  induction k with
  | zero => simp [tabnoSum]
  | succ k ih =>
    rw [tabnoSum, ih, List.range_succ, List.countP_append, List.filter_append, List.sum_append, List.countP_singleton,
      List.filter_cons, List.filter_nil, BitVec.testBit_toNat]
    cases daL.getLsbD k with
    | false => simp
    | true =>
      have hcount (n : Nat) : ((n + 1 : Nat) : Int) * base = (n : Int) * base + base := by
        rw [Int.natCast_add, Int.add_mul, Int.natCast_one, Int.one_mul]
      simp only [if_true, List.sum_cons, List.sum_nil, hcount]
      omega

/-- The base lies between -7 and 2033, so each bit `i` below `k` adds at least `-7 + i` and at most `2033 + i`, set or not
(R141, R143). -/
theorem tabnoSum_range {base : Int} (hlo : -7 ≤ base) (hhi : base ≤ 2033) (daL : Byte) :
    ∀ k : Nat, k ≤ 8 → -7 * (k : Int) + ((List.range k).sum : Nat) ≤ tabnoSum base daL k ∧
      tabnoSum base daL k ≤ 2033 * (k : Int) + ((List.range k).sum : Nat)
  | 0, _ => ⟨Int.le_refl 0, Int.le_refl 0⟩
  | k + 1, hk => by
    have ih := tabnoSum_range hlo hhi daL k (by omega)
    have hsum : (List.range (k + 1)).sum = (List.range k).sum + k := by
      rw [List.range_succ, List.sum_append, List.sum_singleton]
    rw [tabnoSum, hsum]
    split <;> omega

/-- Settles O21: the closed form and the range after all eight bits, and `tabnoWord_toInt`. -/
theorem tableNumberClosedFormAndRange : Obligations.TableNumberClosedFormAndRange := by
  intro h l
  have hh := h.isLt
  have hrange := tabnoSum_range (base := ((h.toNat : Int) - 1) * 8 + 1) (by omega) (by omega) l 8 (Nat.le_refl 8)
  have hsum : (List.range 8).sum = 28 := rfl
  have hbase : 8 * (h.toNat : Int) - 7 = ((h.toNat : Int) - 1) * 8 + 1 := by omega
  rw [hsum] at hrange
  rw [hbase]
  refine ⟨tabnoSum_closed_form _ l 8, ?_, ?_, tabnoWord_toInt h l⟩
  · rw [tabno]; omega
  · rw [tabno]; omega

end Sys2Proof.Machine

/-! ## Family 10_state.md section 8: the host register file -/

namespace Sys2Proof.Machine

open Sys2Proof.Safety

/-! ### Register writes and reads -/

/-- Settles O27, by what a register write can be. -/
theorem otherRegisterWrites : Obligations.OtherRegisterWrites := by
  intro reg data s
  rw [hostStep]
  rcases writeStep_cases ⟨reg, data⟩ s with ⟨h, hbit, -⟩ | ⟨h, hbit, -⟩ | ⟨h, hbit, -⟩ | ⟨-, he⟩
  case inr.inr.inr =>
    rw [he]
    rcases writeReg_cases ⟨reg, data⟩ s with ⟨h, he'⟩ | ⟨h, he'⟩ | ⟨h, h', he'⟩ <;> dsimp only at h
    · exact ⟨fun h1 => by omega, fun h18 => by omega, fun _ => he'⟩
    · exact ⟨fun _ => he', fun _ h1 => absurd h h1, fun h18 => by omega⟩
    · exact ⟨fun h1 => absurd h1 h', fun _ _ _ => he', fun h18 => by omega⟩
  all_goals
    dsimp only at h hbit
    refine ⟨fun h1 => by omega, fun _ _ hsel => ?_, fun h18 => by omega⟩
    rw [hbit] at hsel
    rcases hsel with hsel | hsel
    · cases hsel
    · omega

section
variable {s : State} {reg : Nat} {v : RegView}

/-- A read of a register returns its view's data, for some free value (R34, R195). -/
theorem read_of_viewReg (hv : viewReg reg s = some v) :
    hostStep (.read reg) s =
      .next { s with hostData := v.data (Config.freeBits 32 s.draws), draws := s.draws + 1 } := by
  rw [hostStep, readReg, hv]

/-- A read of a register all of whose bits are specified returns its value. -/
theorem read_of_specified (hv : viewReg reg s = some v) (hu : v.unspecified = 0) :
    hostStep (.read reg) s = .next { s with hostData := v.value, draws := s.draws + 1 } := by
  rw [read_of_viewReg hv, RegView.data_eq_value v _ hu]

/-- A field that holds a value has no unspecified bits. -/
theorem unlessValid_of_valid {valid : Bool} (h : valid = true) (w pos : Nat) : unlessValid valid w pos = 0 := if_pos h

end

/-- Settles O28: HR0 to HR18 have a view, a number above has none. -/
theorem registerReadsDisturbNothing : Obligations.RegisterReadsDisturbNothing := by
  intro reg s
  refine ⟨fun h => ?_, fun h => ?_⟩
  · obtain ⟨v, hv⟩ := viewReg_some reg s h
    exact ⟨_, read_of_viewReg hv⟩
  · rw [hostStep, readReg, viewReg_none reg s h]

/-! ### The bits of a field, in and beside it -/

section
variable {w : Nat} {pos i : Nat}

theorem getLsbD_placeField_of_lt (v : BitVec w) (h : i < pos) : (placeField pos v).getLsbD i = false := by
  simp [getLsbD_placeField, Nat.not_le.2 h]

theorem getLsbD_placeField_of_ge (v : BitVec w) (h : pos + w ≤ i) : (placeField pos v).getLsbD i = false := by
  rw [getLsbD_placeField, BitVec.getLsbD_of_ge v (i - pos) (by omega)]
  simp

theorem getLsbD_placeField_of_mem (v : BitVec w) (h : pos ≤ i) (h' : i < 32) :
    (placeField pos v).getLsbD i = v.getLsbD (i - pos) := by
  rw [getLsbD_placeField, decide_eq_true h', decide_eq_true h, Bool.true_and, Bool.true_and]

theorem getLsbD_unlessValid_of_lt (valid : Bool) (w : Nat) (h : i < pos) : (unlessValid valid w pos).getLsbD i = false := by
  simp [getLsbD_unlessValid, Nat.not_le.2 h]

theorem getLsbD_unlessValid_of_ge (valid : Bool) (w : Nat) (h : pos + w ≤ i) :
    (unlessValid valid w pos).getLsbD i = false := by
  have : ¬ i - pos < w ∨ ¬ pos ≤ i := by omega
  rcases this with h | h <;> simp [getLsbD_unlessValid, h]

end

/-! ### HR2 STATUS -/

section
variable (s : State) (f : Word32)

theorem status_phase : ((viewStatus s).data f).extractLsb' 0 3 = s.phase.code := by
  refine RegView.extract_data _ f 0 3 _ (by decide) fun i hi => ⟨?_, ?_⟩
  · simp (disch := omega) only [viewStatus, getLsbD_unlessValid_of_lt]
  · simp (disch := omega) only [viewStatus, placeFlag, BitVec.getLsbD_or, getLsbD_placeField_of_lt,
      getLsbD_placeField_of_mem, Bool.or_false, Nat.add_sub_cancel_left]

theorem status_stopCause : ((viewStatus s).data f).extractLsb' 10 3 = s.stopCause.code := by
  refine RegView.extract_data _ f 10 3 _ (by decide) fun i hi => ⟨?_, ?_⟩
  · simp (disch := omega) only [viewStatus, getLsbD_unlessValid_of_ge]
  · simp (disch := omega) only [viewStatus, placeFlag, BitVec.getLsbD_or, getLsbD_placeField_of_lt,
      getLsbD_placeField_of_ge, getLsbD_placeField_of_mem, Bool.or_false, Bool.false_or, Nat.add_sub_cancel_left]

theorem status_errCode : ((viewStatus s).data f).extractLsb' 13 3 = s.errCode.code := by
  refine RegView.extract_data _ f 13 3 _ (by decide) fun i hi => ⟨?_, ?_⟩
  · simp (disch := omega) only [viewStatus, getLsbD_unlessValid_of_ge]
  · simp (disch := omega) only [viewStatus, placeFlag, BitVec.getLsbD_or, getLsbD_placeField_of_ge,
      getLsbD_placeField_of_mem, Bool.or_false, Bool.false_or, Nat.add_sub_cancel_left]

theorem status_reserved : ((viewStatus s).data f).extractLsb' 16 16 = 0 := by
  refine RegView.extract_data _ f 16 16 _ (by decide) fun i hi => ⟨?_, ?_⟩
  · simp (disch := omega) only [viewStatus, getLsbD_unlessValid_of_ge]
  · simp (disch := omega) only [viewStatus, placeFlag, BitVec.getLsbD_or, getLsbD_placeField_of_ge, Bool.or_false]
    simp

/-- Every bit of STATUS but DIRECTION is always specified. -/
theorem status_bit {i : Nat} (hi : i < 32) (h : i ≠ 7 ∨ s.hdrValid = true) :
    ((viewStatus s).data f).getLsbD i = (viewStatus s).value.getLsbD i := by
  rw [RegView.getLsbD_data _ _ _ hi, if_neg]
  rcases h with h | h
  · have hside : i < 7 ∨ 7 + 1 ≤ i := by omega
    rcases hside with hside | hside
    · simp [viewStatus, getLsbD_unlessValid_of_lt s.hdrValid 1 hside]
    · simp [viewStatus, getLsbD_unlessValid_of_ge s.hdrValid 1 hside]
  · simp [viewStatus, unlessValid_of_valid h]

/-- The one-bit flags of STATUS; DIRECTION is bit 7 of HR2 only while HDR_VALID = 1. -/
theorem status_flags :
    ((viewStatus s).data f).getLsbD 3 = s.busy ∧ ((viewStatus s).data f).getLsbD 4 = (s.phase == .done) ∧
    ((viewStatus s).data f).getLsbD 5 = (s.phase == .error) ∧ ((viewStatus s).data f).getLsbD 6 = s.hdrValid ∧
    (s.hdrValid = true → ((viewStatus s).data f).getLsbD 7 = s.direction) ∧
    ((viewStatus s).data f).getLsbD 8 = s.crcValid ∧ ((viewStatus s).data f).getLsbD 9 = s.endValid := by
  refine ⟨(status_bit s f (by decide) (.inl (by decide))).trans ?_,
    (status_bit s f (by decide) (.inl (by decide))).trans ?_, (status_bit s f (by decide) (.inl (by decide))).trans ?_,
    (status_bit s f (by decide) (.inl (by decide))).trans ?_, fun hv => (status_bit s f (by decide) (.inr hv)).trans ?_,
    (status_bit s f (by decide) (.inl (by decide))).trans ?_, (status_bit s f (by decide) (.inl (by decide))).trans ?_⟩
  all_goals
    simp (disch := omega) only [viewStatus, placeFlag, BitVec.getLsbD_or, getLsbD_placeField_of_lt,
      getLsbD_placeField_of_ge, getLsbD_placeField_of_mem, Bool.or_false, Bool.false_or]
    simp

/-- BUSY is PHASE in HEADER, SCAN or TRAILER (R14). -/
theorem busy_eq_decide : s.busy = decide (s.phase = .header ∨ s.phase = .scan ∨ s.phase = .trailer) := by
  cases hp : s.phase <;> simp [State.busy, Phase.busy, hp]

end

/-- Settles O29, field by field; the codes are then read off. -/
theorem statusRegisterShowsTheFlags : Obligations.StatusRegisterShowsTheFlags := by
  intro s
  refine ⟨_, read_of_viewReg (v := viewStatus s) rfl, ?_⟩
  obtain ⟨hbusy, hdone, herr, hhdr, hdir, hcrc, hend⟩ := status_flags s (Config.freeBits 32 s.draws)
  rw [status_phase, status_stopCause, status_errCode, status_reserved, hbusy, hdone, herr, hhdr, hcrc, hend]
  have phase : ∀ p : Phase, s.phase = p → s.phase.code = p.code := fun p h => by rw [h]
  have stop : ∀ c : StopCause, s.stopCause = c → s.stopCause.code = c.code := fun c h => by rw [h]
  have err : ∀ c : ErrCode, s.errCode = c → s.errCode.code = c.code := fun c h => by rw [h]
  exact ⟨phase .idle, phase .header, phase .scan, phase .trailer, phase .done, phase .error, busy_eq_decide s, rfl, rfl, rfl,
    hdir, rfl, rfl, stop .none, stop .unitHeader, stop .textPrefix, stop .textBytes, stop .fixedValue, stop .resultCode,
    err .none, err .truncatedHeader, rfl⟩

/-! ### Registers of several fields as numbers -/

section
variable {w1 w2 w3 w4 : Nat} (p1 : Nat) {p2 p3 p4 : Nat} (a : BitVec w1) (b : BitVec w2) (c : BitVec w3) (d : BitVec w4)

/-- A number made of whole multiples of `2 ^ p` has `p` zero bits. -/
theorem mul_two_pow_mod {p q : Nat} (h : p ≤ q) (x : Nat) : x * 2 ^ q % 2 ^ p = 0 :=
  Nat.mod_eq_zero_of_dvd (Nat.dvd_trans (Nat.pow_dvd_pow 2 h) (Nat.dvd_mul_left _ x))

/-- Two fields side by side, the higher first. -/
theorem twoFields_toNat (h1 : p1 + w1 ≤ 32) (h2 : p2 + w2 ≤ p1) :
    (placeField p1 a ||| placeField p2 b).toNat = a.toNat * 2 ^ p1 + b.toNat * 2 ^ p2 := by
  have ha := placeField_toNat p1 a h1
  rw [or_placeField_toNat _ p2 b (by omega) (by rw [ha, mul_two_pow_mod h2]), ha]

/-- Three fields side by side. -/
theorem threeFields_toNat (h1 : p1 + w1 ≤ 32) (h2 : p2 + w2 ≤ p1) (h3 : p3 + w3 ≤ p2) :
    (placeField p1 a ||| placeField p2 b ||| placeField p3 c).toNat =
      a.toNat * 2 ^ p1 + b.toNat * 2 ^ p2 + c.toNat * 2 ^ p3 := by
  have hab := twoFields_toNat p1 a b h1 h2
  rw [or_placeField_toNat _ p3 c (by omega) ?_, hab]
  rw [hab, Nat.add_mod, mul_two_pow_mod (by omega), mul_two_pow_mod h3]
  simp

/-- Four fields side by side. -/
theorem fourFields_toNat (h1 : p1 + w1 ≤ 32) (h2 : p2 + w2 ≤ p1) (h3 : p3 + w3 ≤ p2) (h4 : p4 + w4 ≤ p3) :
    (placeField p1 a ||| placeField p2 b ||| placeField p3 c ||| placeField p4 d).toNat =
      a.toNat * 2 ^ p1 + b.toNat * 2 ^ p2 + c.toNat * 2 ^ p3 + d.toNat * 2 ^ p4 := by
  have habc := threeFields_toNat p1 a b c h1 h2 h3
  rw [or_placeField_toNat _ p4 d (by omega) ?_, habc]
  rw [habc, Nat.add_mod, Nat.add_mod (a.toNat * 2 ^ p1), mul_two_pow_mod (by omega), mul_two_pow_mod (by omega),
    mul_two_pow_mod h4]
  simp

end

/-- Settles O30: every bit is specified while HDR_VALID = 1, and each register is the sum of its fields. -/
theorem headerRegistersShowTheHeader : Obligations.HeaderRegistersShowTheHeader := by
  intro s hv
  have four : ∀ a b c d : Byte,
      (placeField 24 a ||| placeField 16 b ||| placeField 8 c ||| placeField 0 d).toNat =
        a.toNat * 2 ^ 24 + b.toNat * 2 ^ 16 + c.toNat * 2 ^ 8 + d.toNat := fun a b c d => by
    rw [fourFields_toNat 24 a b c d (by decide) (by decide) (by decide) (by decide), Nat.pow_zero, Nat.mul_one]
  refine ⟨⟨_, read_of_specified (v := viewHdrA s) rfl (unlessValid_of_valid hv _ _), ?_⟩,
    ⟨_, read_of_specified (v := viewAddrHi s) rfl (unlessValid_of_valid hv _ _), four _ _ _ _⟩,
    ⟨_, read_of_specified (v := viewAddrLo s) rfl (unlessValid_of_valid hv _ _), four _ _ _ _⟩,
    ⟨_, read_of_specified (v := viewHdrB s) rfl (unlessValid_of_valid hv _ _), ?_⟩⟩
  · dsimp only [viewHdrA]
    rw [threeFields_toNat 24 _ _ _ (by decide) (by decide) (by decide), Nat.pow_zero, Nat.mul_one]
  · dsimp only [viewHdrB]
    rw [threeFields_toNat 16 _ _ _ (by decide) (by decide) (by decide), Nat.pow_zero, Nat.mul_one]

/-! ### HR10 TRAILER -/

/-- Settles O31: in DONE each field is specified under its valid bit, and the reserved bits always are. -/
theorem trailerRegisterShowsValidFields : Obligations.TrailerRegisterShowsValidFields := by
  intro s hp
  refine ⟨_, read_of_viewReg (v := viewTrailer s) rfl, fun hv => ?_, fun hv => ?_, ?_⟩
  · have hvalid : (s.phase == .done && s.crcValid) = true := by simp [hp, hv]
    refine RegView.extract_data _ _ 8 16 _ (by decide) fun i hi => ⟨?_, ?_⟩
    · simp (disch := omega) only [viewTrailer, unlessValid_of_valid hvalid, BitVec.getLsbD_or,
        getLsbD_unlessValid_of_ge]
      simp
    · simp (disch := omega) only [viewTrailer, BitVec.getLsbD_or, getLsbD_placeField_of_ge, getLsbD_placeField_of_mem,
        Bool.or_false, Nat.add_sub_cancel_left]
  · have hvalid : (s.phase == .done && s.endValid) = true := by simp [hp, hv]
    refine RegView.extract_data _ _ 0 8 _ (by decide) fun i hi => ⟨?_, ?_⟩
    · simp (disch := omega) only [viewTrailer, unlessValid_of_valid hvalid, BitVec.getLsbD_or,
        getLsbD_unlessValid_of_lt]
      simp
    · simp (disch := omega) only [viewTrailer, BitVec.getLsbD_or, getLsbD_placeField_of_lt, getLsbD_placeField_of_mem,
        Bool.false_or, Nat.add_sub_cancel_left]
  · refine RegView.extract_data _ _ 24 8 _ (by decide) fun i hi => ⟨?_, ?_⟩
    · simp (disch := omega) only [viewTrailer, BitVec.getLsbD_or, getLsbD_unlessValid_of_ge, Bool.or_false]
    · simp (disch := omega) only [viewTrailer, BitVec.getLsbD_or, getLsbD_placeField_of_ge, Bool.or_false]
      simp

/-! ### HR11 to HR15 and HR17: the queue windows -/

section
variable {s : State} {r : Record} {rest : List Record} (h : s.duq = r :: rest)
include h

theorem viewDuDadt_of_head :
    viewReg 11 s = some (plain (placeField 24 r.daH ||| placeField 16 r.daL ||| placeField 0 r.typeWord)) := by
  rw [viewReg, viewDuDadt, h]

theorem viewDuInfo_of_head : viewReg 12 s = some (plain (placeField 16 r.tabno ||| placeField 0 r.declLen)) := by
  rw [viewReg, viewDuInfo, h]

theorem viewDuValue_of_head : viewReg 13 s = some (plain r.valueWord) := by
  rw [viewReg, viewDuValue, h]

theorem viewDuOff_of_head : viewReg 15 s = some (plain (offsetField s r.unitOff)) := by
  rw [viewReg, viewDuOff, h]

end

/-- HR14 while a record is at the head (R34). -/
def flagsView (r : Record) : RegView where
  value :=
    placeFlag 0 true ||| placeField 1 r.kind.code ||| placeField 4 r.kind.shape ||| placeFlag 6 r.resultCode.isSome |||
      placeField 8 (r.resultCode.getD 0)
  unspecified := unlessValid r.resultCode.isSome 8 8

section
variable (r : Record) (f : Word32)

theorem viewDuFlags_of_head {s : State} {rest : List Record} (h : s.duq = r :: rest) :
    viewReg 14 s = some (flagsView r) := by
  rw [viewReg, viewDuFlags, h]
  rfl

theorem flags_kind : ((flagsView r).data f).extractLsb' 1 3 = r.kind.code := by
  refine RegView.extract_data _ f 1 3 _ (by decide) fun i hi => ⟨?_, ?_⟩
  · simp (disch := omega) only [flagsView, getLsbD_unlessValid_of_lt]
  · simp (disch := omega) only [flagsView, placeFlag, BitVec.getLsbD_or, getLsbD_placeField_of_lt,
      getLsbD_placeField_of_ge, getLsbD_placeField_of_mem, Bool.or_false, Bool.false_or, Nat.add_sub_cancel_left]

theorem flags_shape : ((flagsView r).data f).extractLsb' 4 2 = r.kind.shape := by
  refine RegView.extract_data _ f 4 2 _ (by decide) fun i hi => ⟨?_, ?_⟩
  · simp (disch := omega) only [flagsView, getLsbD_unlessValid_of_lt]
  · simp (disch := omega) only [flagsView, placeFlag, BitVec.getLsbD_or, getLsbD_placeField_of_lt,
      getLsbD_placeField_of_ge, getLsbD_placeField_of_mem, Bool.or_false, Bool.false_or, Nat.add_sub_cancel_left]

theorem flags_resultCode {b : Byte} (h : r.resultCode = some b) : ((flagsView r).data f).extractLsb' 8 8 = b := by
  have hvalid : r.resultCode.isSome = true := by rw [h]; rfl
  refine RegView.extract_data _ f 8 8 _ (by decide) fun i hi => ⟨?_, ?_⟩
  · rw [flagsView, unlessValid_of_valid hvalid]
    simp
  · simp (disch := omega) only [flagsView, placeFlag, BitVec.getLsbD_or, getLsbD_placeField_of_ge,
      getLsbD_placeField_of_mem, Bool.false_or, Nat.add_sub_cancel_left, h, Option.getD_some]

theorem flags_reserved : ((flagsView r).data f).extractLsb' 16 16 = 0 := by
  refine RegView.extract_data _ f 16 16 _ (by decide) fun i hi => ⟨?_, ?_⟩
  · simp (disch := omega) only [flagsView, getLsbD_unlessValid_of_ge]
  · simp (disch := omega) only [flagsView, placeFlag, BitVec.getLsbD_or, getLsbD_placeField_of_ge, Bool.or_false]
    simp

/-- The one-bit fields: DU_AVAIL, RC_VALID, and bit 7, to which the table gives no field (log 27). -/
theorem flags_bits :
    ((flagsView r).data f).getLsbD 0 = true ∧ ((flagsView r).data f).getLsbD 6 = r.resultCode.isSome ∧
      ((flagsView r).data f).getLsbD 7 = false := by
  refine ⟨?_, ?_, ?_⟩
  all_goals
    rw [RegView.getLsbD_data _ _ _ (by decide)]
    simp (disch := omega) only [flagsView, placeFlag, BitVec.getLsbD_or, getLsbD_unlessValid_of_lt,
      getLsbD_placeField_of_lt, getLsbD_placeField_of_ge, getLsbD_placeField_of_mem, Bool.or_false, Bool.false_or]
    simp

end

/-- HR13 shows W of the integer shapes and TEXT_KEPT of a text (R27, R30). -/
theorem valueWord_cases (r : Record) :
    (∀ w, r.value = .signed w → r.valueWord = w) ∧ (∀ w, r.value = .unsigned w → r.valueWord = w) ∧
      ∀ chars, r.value = .text chars → chars.length < 2 ^ 16 → r.valueWord.toNat = chars.length := by
  refine ⟨fun w h => by rw [Record.valueWord, h], fun w h => by rw [Record.valueWord, h], fun chars h hlt => ?_⟩
  rw [Record.valueWord, h, BitVec.toNat_ofNat, Nat.mod_eq_of_lt (by omega)]

/-- HR14 with no record at the head: DU_AVAIL is specified, and 0. -/
theorem flags_avail_of_empty {s : State} (h : s.duq = []) (f : Word32) : ((viewDuFlags s).data f).getLsbD 0 = false := by
  rw [RegView.getLsbD_data _ _ _ (by decide), viewDuFlags, h]
  simp (disch := omega) only [getLsbD_unlessValid_of_lt]
  simp

/-- HR17 with no character at the head: TX_AVAIL is specified, and 0. -/
theorem txChar_avail_of_empty {s : State} (h : s.txq = []) (f : Word32) : ((viewTxChar s).data f).getLsbD 8 = false := by
  rw [RegView.getLsbD_data _ _ _ (by decide), viewTxChar, h]
  simp (disch := omega) only [getLsbD_unlessValid_of_ge]
  simp

/-- HR17 shows the head character, and TX_AVAIL above it. -/
theorem viewTxChar_of_head {s : State} {c : Byte} {rest : List Byte} (h : s.txq = c :: rest) :
    viewReg 17 s = some (plain (placeFlag 8 true ||| placeField 0 c)) := by
  rw [viewReg, viewTxChar, h]

/-- Settles O32, window by window. -/
theorem queueWindowsShowTheHeads : Obligations.QueueWindowsShowTheHeads := by
  refine fun s => ⟨fun r rest h => ⟨?_, ?_, ?_, ?_, fun hoff hw => ?_⟩, fun h => ?_, fun c rest h => ?_, fun h => ?_⟩
  · refine ⟨_, read_of_specified (viewDuDadt_of_head h) rfl, ?_⟩
    dsimp only [plain]
    rw [threeFields_toNat 24 _ _ _ (by decide) (by decide) (by decide), Nat.pow_zero, Nat.mul_one]
  · refine ⟨_, read_of_specified (viewDuInfo_of_head h) rfl, ?_⟩
    dsimp only [plain]
    rw [twoFields_toNat 16 _ _ (by decide) (by decide), Nat.pow_zero, Nat.mul_one]
  · exact ⟨_, read_of_specified (viewDuValue_of_head h) rfl, valueWord_cases r⟩
  · refine ⟨_, read_of_viewReg (viewDuFlags_of_head r h), ?_⟩
    obtain ⟨havail, hrc, hbit7⟩ := flags_bits r (Config.freeBits 32 s.draws)
    have kind : ∀ k : Kind, r.kind = k → r.kind.code = k.code ∧ r.kind.shape = k.shape :=
      fun k hk => hk ▸ ⟨rfl, rfl⟩
    rw [flags_kind, flags_shape]
    exact ⟨havail, kind .dflt, kind .int, kind .text, kind .enum, kind .uint, hrc, hbit7,
      fun b hb => flags_resultCode r _ hb, flags_reserved r _⟩
  · exact ⟨_, read_of_specified (viewDuOff_of_head h) rfl, offsetField_toNat s r.unitOff hoff hw⟩
  · exact ⟨_, read_of_viewReg (v := viewDuFlags s) rfl, flags_avail_of_empty h _⟩
  · refine ⟨_, read_of_specified (viewTxChar_of_head h) rfl, ?_⟩
    dsimp only [plain, placeFlag]
    rw [twoFields_toNat 8 _ _ (by decide) (by decide), Nat.pow_zero, Nat.mul_one]
    rfl
  · exact ⟨_, read_of_viewReg (v := viewTxChar s) rfl, txChar_avail_of_empty h _⟩

/-! ### HR1, HR3, HR4, HR5 and the write-only registers -/

/-- Settles O33: in a legal state every quantity fits OFFW bits, by `unitCountIsBounded`. -/
theorem offsetRegistersShowTheirQuantities : Obligations.OffsetRegistersShowTheirQuantities := by
  intro s h
  obtain ⟨-, hoff, hcount, hscan, -⟩ := unitCountIsBounded s h
  have hw : s.cfg.offw ≤ 32 := h.cfg.2
  refine ⟨⟨_, read_of_specified rfl rfl, offsetField_toNat s _ h.nNextFits hw⟩,
    ⟨_, read_of_specified rfl rfl, offsetField_toNat s _ hoff hw⟩, fun hc => ?_,
    ⟨_, read_of_specified rfl rfl, offsetField_toNat s _ hcount hw⟩, ?_⟩
  · have hvalid : (s.stopCause != .none) = true := by simpa using hc
    exact ⟨_, read_of_specified (v := viewScanOff s) rfl (unlessValid_of_valid hvalid _ _),
      offsetField_toNat s _ (hscan hc) hw⟩
  · rintro reg (rfl | rfl | rfl)
    · exact ⟨_, read_of_specified rfl rfl, rfl⟩
    · exact ⟨_, read_of_specified rfl rfl, rfl⟩
    · exact ⟨_, read_of_specified rfl rfl, rfl⟩

end Sys2Proof.Machine

/-! ## Family 44_host_operations.md: steps, host operations and host accesses -/

namespace Sys2Proof.Machine

open Sys2Proof.Safety

/-! ### What a step selects -/

/-- Settles O5, phase by phase. -/
theorem stepRunsTheSelectedOperation : Obligations.StepRunsTheSelectedOperation := by
  intro s hq
  rw [step_nil hq]
  refine ⟨fun hp => ?_, fun i hp hr hdecode => ?_, fun hp hd hr => ?_, fun hp => ?_, fun hp => ?_⟩
  · rw [decoderStep, hp]
    rfl
  · have hscan : decoderStep s = scannerStep s := by rw [decoderStep, hp]
    have hunit : decode (.unit (fetchUnit s)) = .ok i := by rw [decode, fetchUnit, hdecode]
    rw [hscan, scannerStep, if_neg (by rw [remaining]; omega), hunit]
  · rw [decoderStep_of_scan_short hp hd hr]
    rfl
  · rw [decoderStep, hp]
    rfl
  · exact decoderStep_of_not_busy (by rcases hp with hp | hp | hp <;> exact busy_of_phase hp rfl)

/-- Settles O6: the step is the oldest event's, and three writes, the reset input and the wait are what they select. -/
theorem stepConsumesTheOldestHostEvent : Obligations.StepConsumesTheOldestHostEvent := by
  intro s rest
  have write : ∀ (w : RegWrite) (i : Instr), decode (.hostWrite w) = .ok i → s.pending = .write w :: rest →
      step s = exec i { s with pending := rest } := fun w i hdecode h => by
    rw [step_cons h, hostStep, writeStep, hdecode]
  refine ⟨fun e h => step_cons h, fun h => step_cons h, fun data hbit => ⟨?_, ?_, ?_⟩, fun h => step_cons h⟩
  · exact write ⟨0, data⟩ .start (by simp only [decode, decodeWrite, if_pos hbit, if_true])
  · exact write ⟨16, data⟩ .duPop (if_pos hbit)
  · exact write ⟨18, data⟩ .txPop (if_pos hbit)

/-- Settles O7: all three go through `inPhase`. -/
theorem decoderOperationsAreRefusedOutsideTheirPhase : Obligations.DecoderOperationsAreRefusedOutsideTheirPhase :=
  fun s => ⟨fun hp => inPhase_of_ne _ hp, fun i f hf hp => by rw [exec_unit hf, inPhase_of_ne _ hp],
    fun hp => inPhase_of_ne _ hp⟩

/-! ### RESET, START and the pops -/

/-- Settles O23: the fields of `resetBlock`. -/
theorem resetLeavesTheIdleState : Obligations.ResetLeavesTheIdleState := fun s =>
  ⟨resetBlock s, rfl, rfl, rfl, rfl, rfl, rfl, rfl, rfl, rfl, rfl, rfl, rfl, rfl, rfl, rfl, rfl, rfl, rfl, rfl⟩

/-- Settles O24: the fields of `State.reset`. -/
theorem initialStateHasTheResetValues : Obligations.InitialStateHasTheResetValues :=
  ⟨rfl, rfl, rfl, rfl, rfl, rfl, rfl, rfl, rfl, rfl, rfl, rfl, rfl, rfl, rfl⟩

section
variable {s : State}

theorem exec_start_of_busy (hb : s.busy = true) : exec .start s = .next s := by
  rw [exec, execStart, if_pos hb]

theorem exec_start_eq_startDecode (hb : s.busy = false) : exec .start s = .next (startDecode s) := by
  rw [exec, execStart, hb]
  rfl

end

/-- Settles O25: BUSY decides between the two. -/
theorem startBeginsADecodeUnlessBusy : Obligations.StartBeginsADecodeUnlessBusy := by
  refine fun s => ⟨fun hp => ?_, fun hp => ?_⟩
  · have hb : s.busy = false := by rcases hp with hp | hp | hp <;> exact busy_of_phase hp rfl
    rw [exec_start_eq_startDecode hb]
    rfl
  · have hb : s.busy = true := by rcases hp with hp | hp | hp <;> exact busy_of_phase hp rfl
    exact exec_start_of_busy hb

/-- Settles O26: a pop takes the tail of its queue. -/
theorem popsRemoveTheHead : Obligations.PopsRemoveTheHead := by
  have records : ∀ s : State, exec .duPop s = .next { s with duq := s.duq.tail } := fun s => rfl
  have chars : ∀ s : State, exec .txPop s = .next { s with txq := s.txq.tail } := fun s => rfl
  intro s
  refine ⟨fun r rest h => ?_, fun h => ?_, fun c rest h => ?_, fun h => ?_⟩
  · rw [records, h, List.tail_cons]
  · rw [records, h, List.tail_nil, ← h]
  · rw [chars, h, List.tail_cons]
  · rw [chars, h, List.tail_nil, ← h]

/-- Settles O40, for START by the phase it leads to from a state that is not BUSY. -/
theorem irqIsUpWhileADecodeHasEnded : Obligations.IrqIsUpWhileADecodeHasEnded := by
  intro s
  have hirq : s.irq = true ↔ s.phase = .done ∨ s.phase = .error := by simp [State.irq]
  refine ⟨hirq, fun t h ht => ?_, fun t ht => ?_⟩
  · have hb : s.busy = false := by rcases hirq.1 h with hp | hp <;> exact busy_of_phase hp rfl
    obtain rfl := exec_start_of_not_busy hb ht
    rfl
  · cases ht
    rfl

/-! ### Placed bytes -/

/-- Settles O34, by the three outcomes of `placeByte` and the laws of the buffer. -/
theorem hostPlacesBytes : Obligations.HostPlacesBytes := by
  intro a b s
  have other : ∀ a', a' ≠ a → Memory.read (Memory.place s.buf a b) a' = Memory.read s.buf a' := fun a' h =>
    Memory.read_place_other s.buf a a' b h
  have same : Memory.read (Memory.place s.buf a b) a = b := Memory.read_place_same s.buf a b
  rw [hostStep]
  rcases placeByte_cases a b s with ⟨ha, he⟩ | ⟨ha, hb, hn, he⟩ | ⟨ha, hbn, he⟩
  · exact ⟨fun h => by omega, fun _ h => by omega, fun _ => he⟩
  · refine ⟨fun _ h => ?_, fun _ _ _ => ⟨_, he, rfl, same, other, rfl, rfl, rfl, rfl, rfl, rfl, rfl⟩, fun h => by omega⟩
    rcases h with h | h
    · rw [hb] at h
      cases h
    · omega
  · refine ⟨fun _ _ => ⟨_, he, same, other⟩, fun hn _ hb => ?_, fun h => by omega⟩
    rcases hbn with h | h
    · rw [hb] at h
      cases h
    · omega

/-! ## The whole machine: what operations leave alone -/

/-- What no operation touches: the buffer, the parameters, the host's pending events and its read data (R41). -/
structure SameHostSide (s t : State) : Prop where
  buf : t.buf = s.buf
  cfg : t.cfg = s.cfg
  pending : t.pending = s.pending
  hostData : t.hostData = s.hostData

section
variable {i : Instr} {s t : State}

theorem exec_sameHostSide (h : exec i s = .next t) : SameHostSide s t := by
  rcases exec_next_cases h with ⟨-, -, -, -, rfl⟩ | ⟨-, -, -, -, rfl⟩ | ⟨-, -, -, c, off, -, -, rfl⟩ |
    ⟨-, -, -, r, off, -, rfl⟩ | ⟨-, -, -, rfl⟩ | ⟨hb, -, -, -, rfl⟩ | ⟨-, rfl⟩ | ⟨-, -, rfl⟩ | ⟨-, -, rfl⟩ | ⟨-, rfl⟩ |
    ⟨-, rfl⟩
  case inr.inr.inr.inr.inl => exact ⟨by simp, by simp, by simp, by simp⟩
  case inr.inr.inr.inr.inr.inl =>
    have hrun := disturbedOp_runsOn hb
    exact ⟨hrun.buf, hrun.cfg, hrun.pending, hrun.hostData⟩
  all_goals exact ⟨rfl, rfl, rfl, rfl⟩

/-- N and N_NEXT after every operation but the two that may write them (R154). -/
theorem exec_length (h : exec i s = .next t) :
    (i = .reset ∨ t.nNext = s.nNext) ∧ (i = .start ∨ i = .reset ∨ t.n = s.n) := by
  rcases exec_next_cases h with ⟨-, -, -, -, rfl⟩ | ⟨-, -, -, -, rfl⟩ | ⟨-, -, -, c, off, -, -, rfl⟩ |
    ⟨-, -, -, r, off, -, rfl⟩ | ⟨-, -, -, rfl⟩ | ⟨hb, -, -, -, rfl⟩ | ⟨hi, rfl⟩ | ⟨-, -, rfl⟩ | ⟨hi, -, rfl⟩ | ⟨-, rfl⟩ |
    ⟨-, rfl⟩
  case inr.inr.inr.inr.inl => exact ⟨.inr (by simp), .inr (.inr (by simp))⟩
  case inr.inr.inr.inr.inr.inl =>
    have hrun := disturbedOp_runsOn hb
    exact ⟨.inr hrun.nNext, .inr (.inr hrun.n)⟩
  case inr.inr.inr.inr.inr.inr.inl => exact ⟨.inl hi, .inr (.inl hi)⟩
  case inr.inr.inr.inr.inr.inr.inr.inr.inl => exact ⟨.inr rfl, .inl hi⟩
  all_goals exact ⟨.inr rfl, .inr (.inr rfl)⟩

end

/-- Settles O35: the buffer is the same, so it reads the same. -/
theorem operationsNeverWriteTheBuffer : Obligations.OperationsNeverWriteTheBuffer := by
  intro i s t h
  obtain ⟨hbuf, hcfg, hpending, hdata⟩ := exec_sameHostSide h
  exact ⟨hbuf, fun a => by rw [hbuf], hcfg, hpending, hdata⟩

/-- Settles O36, by `exec_length`. -/
theorem lengthIsLatched : Obligations.LengthIsLatched := by
  intro i s t h
  obtain ⟨hnext, hn⟩ := exec_length h
  exact ⟨fun hne => hn.imp_right fun hn => hn.resolve_right hne, fun hne => hnext.resolve_right hne⟩

/-! ## What host events do to the phase and to the disturbed mark -/

section
variable {s t : State}

/-- A register write is START on HR0 when the block is not BUSY, or it leaves PHASE and the disturbed mark as they are
(R153 to R156). -/
theorem writeStep_start_or_same {w : RegWrite} (h : writeStep w s = .next t) :
    (w.reg = 0 ∧ w.data.getLsbD 0 = true ∧ s.busy = false ∧ t = startDecode s) ∨
      t.phase = s.phase ∧ t.disturbed = s.disturbed := by
  rcases writeStep_cases w s with ⟨h0, hbit, he⟩ | ⟨-, -, he⟩ | ⟨-, -, he⟩ | ⟨-, he⟩ <;> rw [he] at h
  · cases hb : s.busy with
    | true =>
      cases (exec_start_of_busy hb).symm.trans h
      exact .inr ⟨rfl, rfl⟩
    | false =>
      cases (exec_start_eq_startDecode hb).symm.trans h
      exact .inl ⟨h0, hbit, rfl, rfl⟩
  · cases h
    exact .inr ⟨rfl, rfl⟩
  · cases h
    exact .inr ⟨rfl, rfl⟩
  · rcases writeReg_cases w s with ⟨-, he'⟩ | ⟨-, he'⟩ | ⟨-, -, he'⟩ <;> rw [he'] at h <;> cases h
    · exact .inr ⟨rfl, rfl⟩
    · exact .inr ⟨rfl, rfl⟩

theorem scanUnit_disturbed (k : Kind) (daH daL : Byte) (w : Word16) (readValue : State → Nat → Reading ValueRead)
    (s : State) : (scanUnit k daH daL w readValue s).disturbed = s.disturbed := by
  rcases scanUnit_cases k daH daL w readValue s with
    ⟨-, e⟩ | ⟨-, c, off, -, e⟩ | ⟨-, v, off, -, c, off', -, e⟩ | ⟨-, v, off, -, rc, off', -, e⟩ <;> rw [e] <;> rfl

/-- The decoder neither disturbs a decode nor undoes it (R193). -/
theorem decoderStep_disturbed_eq (h : decoderStep s = .next t) : t.disturbed = s.disturbed := by
  rcases decoderStep_eq s with ⟨-, -, -, he⟩ | ⟨-, -, -, he⟩ | ⟨-, -, he⟩ | ⟨-, -, he⟩ | ⟨hb, hd, -⟩ | ⟨-, he⟩
  · cases he.symm.trans h
    rfl
  · cases he.symm.trans h
    rfl
  · cases he.symm.trans h
    exact scanUnit_disturbed ..
  · cases he.symm.trans h
    simp
  · exact (decoderStep_keeps_disturbed hb hd h).trans hd.symm
  · cases he.symm.trans h
    rfl

/-- Every host event, by what it does to PHASE and to the disturbed mark. -/
theorem hostStep_mode_cases {e : HostEvent} (h : hostStep e s = .next t) :
    (e = .reset ∧ t = resetBlock s) ∨
    (∃ data : Word32, e = .write ⟨0, data⟩ ∧ data.getLsbD 0 = true ∧ s.busy = false ∧ t = startDecode s) ∨
    (e = .wait ∧ decoderStep s = .next t) ∨
    (s.busy = true ∧ (∃ a b, e = .place a b ∧ a < s.n) ∧ t.phase = s.phase ∧ t.disturbed = true) ∨
    (t.phase = s.phase ∧ t.disturbed = s.disturbed) := by
  cases e with
  | reset =>
    cases h
    exact .inl ⟨rfl, rfl⟩
  | wait => exact .inr (.inr (.inl ⟨rfl, h⟩))
  | write w =>
    obtain ⟨reg, data⟩ := w
    rcases writeStep_start_or_same h with ⟨rfl, hbit, hb, ht⟩ | hsame
    · exact .inr (.inl ⟨data, rfl, hbit, hb, ht⟩)
    · exact .inr (.inr (.inr (.inr hsame)))
  | read reg =>
    obtain ⟨v, -, rfl⟩ := readReg_eq_next h
    exact .inr (.inr (.inr (.inr ⟨rfl, rfl⟩)))
  | place a b =>
    rw [hostStep] at h
    rcases placeByte_cases a b s with ⟨-, he⟩ | ⟨-, hb, hn, he⟩ | ⟨-, -, he⟩ <;> rw [he] at h <;> cases h
    · exact .inr (.inr (.inr (.inl ⟨hb, ⟨a, b, rfl, hn⟩, rfl, rfl⟩)))
    · exact .inr (.inr (.inr (.inr ⟨rfl, rfl⟩)))

end

/-- Settles O39: of the host events only the reset input and an unignored START change the phase ERROR. -/
theorem errorIsLeftOnlyByStartOrReset : Obligations.ErrorIsLeftOnlyByStartOrReset := by
  intro e s t hp h hne
  have hb : s.busy = false := busy_of_phase hp rfl
  rcases hostStep_mode_cases h with ⟨rfl, rfl⟩ | ⟨data, rfl, hbit, -, rfl⟩ | ⟨-, ht⟩ | ⟨-, -, ht, -⟩ | ⟨ht, -⟩
  · exact .inl ⟨rfl, rfl⟩
  · exact .inr ⟨data, rfl, hbit, rfl, rfl⟩
  · cases (decoderStep_of_not_busy hb).symm.trans ht
    exact absurd hp hne
  · exact absurd (ht.trans hp) hne
  · exact absurd (ht.trans hp) hne

/-- Settles O51: the mark changes only where a byte is placed into the frame, at RESET and at an unignored START. -/
theorem onlyAWriteIntoTheFrameDisturbs : Obligations.OnlyAWriteIntoTheFrameDisturbs := by
  intro e s t h
  have same : t.disturbed = s.disturbed →
      (s.disturbed = false → t.disturbed = true → s.busy = true ∧ ∃ a b, e = .place a b ∧ a < s.n) ∧
      (s.disturbed = true → t.disturbed = false →
        e = .reset ∨ s.busy = false ∧ ∃ data : Word32, e = .write ⟨0, data⟩ ∧ data.getLsbD 0 = true) :=
    fun he => ⟨fun hs ht => by simp [he, hs] at ht, fun hs ht => by simp [he, hs] at ht⟩
  rcases hostStep_mode_cases h with ⟨rfl, rfl⟩ | ⟨data, rfl, hbit, hb, rfl⟩ | ⟨-, ht⟩ | ⟨hb, hplace, -, ht⟩ | ⟨-, ht⟩
  · exact ⟨nofun, fun _ _ => .inl rfl⟩
  · exact ⟨nofun, fun _ _ => .inr ⟨hb, data, rfl, hbit⟩⟩
  · exact same (decoderStep_disturbed_eq ht)
  · exact ⟨fun _ _ => ⟨hb, hplace⟩, fun _ hf => by simp [ht] at hf⟩
  · exact same ht

/-- Settles O45: the other outcome of `hostStep_busy_cases` is a byte placed below N. -/
theorem hostAccessesLeaveTheDecodeAlone : Obligations.HostAccessesLeaveTheDecodeAlone := by
  intro e s t hb ha hplace h
  rcases hostStep_busy_cases hb ha h with hsame | ⟨⟨a, b, he, hlt⟩, -⟩
  · exact hsame
  · have := hplace a b he
    omega

/-- Settles O46: the second decode steps too, to the same point. -/
theorem decoderDependsOnTheDecodeAlone : Obligations.DecoderDependsOnTheDecodeAlone := by
  intro s t s' h hd hs
  obtain ⟨t', ht⟩ := decoderStep_next t
  exact ⟨⟨t', ht, decoderStep_sameDecode h hd hs ht⟩, observe_sameDecode h⟩

end Sys2Proof.Machine
